-- ==== Sys2Proof/Word.lean ====
section
/-! DEFINITION. The value types of CPU0: a word of 32 bits and a byte of 8 bits (00_scope.md R4, R7; 20_memory.md
R51). Addition, subtraction and multiplication of `BitVec 32` are modulo 2^32, as R7 asks. -/

namespace Sys2Proof

/-- A 32-bit value: a register's contents, an address, an instruction word (R7). -/
abbrev Word := BitVec 32

/-- An 8-bit value: what memory holds at one address (R51). -/
abbrev Byte := BitVec 8

end Sys2Proof
end

