-- ==== Sys2Proof/Syntax.lean ====
section
/-! DEFINITION. The instructions of CPU0: one constructor per row of the opcode table (30_encoding.md R88), in the
table's order. A constant is held as the 32-bit value R86 decodes it to (`c16`, `c12`, `c24`, sign-extended), a shift
or rotate count as the number `n` it stands for; WellFormed.lean checks their ranges. Bits that an instruction does
not use (R90) have no place here. -/

namespace Sys2Proof

/-- The sixteen general registers (10_state.md R20): R0 is the constant 0, R12 is SW, R13 is SP, R14 is LR, R15 is
PC (R21 to R26). -/
inductive Reg where
  | r0 | r1 | r2 | r3 | r4 | r5 | r6 | r7 | r8 | r9 | r10 | r11 | r12 | r13 | r14 | r15
deriving DecidableEq, Repr

/-- An instruction with its operands, named as the pseudocode of the rules names them. -/
inductive Instr where
  /-- `LD Ra, [Rb+Cx]`, OP 00 (R111) -/
  | ld (a b : Reg) (c16 : Word)
  /-- `ST Ra, [Rb+Cx]`, OP 01 (R112) -/
  | st (a b : Reg) (c16 : Word)
  /-- `LDB Ra, [Rb+Cx]`, OP 02 (R113) -/
  | ldb (a b : Reg) (c16 : Word)
  /-- `STB Ra, [Rb+Cx]`, OP 03 (R114) -/
  | stb (a b : Reg) (c16 : Word)
  /-- `LDR Ra, [Rb+Rc]`, OP 04 (R115) -/
  | ldr (a b c : Reg)
  /-- `STR Ra, [Rb+Rc]`, OP 05 (R116) -/
  | str (a b c : Reg)
  /-- `LBR Ra, [Rb+Rc]`, OP 06 (R117) -/
  | lbr (a b c : Reg)
  /-- `SBR Ra, [Rb+Rc]`, OP 07 (R118) -/
  | sbr (a b c : Reg)
  /-- `LDI Ra, Cx`, OP 08 (R119) -/
  | ldi (a : Reg) (c16 : Word)
  /-- `CMP Ra, Rb`, OP 10 (R131) -/
  | cmp (a b : Reg)
  /-- `MOV Ra, Rb`, OP 12 (R132) -/
  | mov (a b : Reg)
  /-- `ADD Ra, Rb, Rc`, OP 13 (R133) -/
  | add (a b c : Reg)
  /-- `SUB Ra, Rb, Rc`, OP 14 (R134) -/
  | sub (a b c : Reg)
  /-- `MUL Ra, Rb, Rc`, OP 15 (R135) -/
  | mul (a b c : Reg)
  /-- `DIV Ra, Rb, Rc`, OP 16 (R136) -/
  | div (a b c : Reg)
  /-- `AND Ra, Rb, Rc`, OP 18 (R137) -/
  | and (a b c : Reg)
  /-- `OR Ra, Rb, Rc`, OP 19 (R138) -/
  | or (a b c : Reg)
  /-- `XOR Ra, Rb, Rc`, OP 1A (R139) -/
  | xor (a b c : Reg)
  /-- `ADDI Ra, Rb, Cx`, OP 1B (R140) -/
  | addi (a b : Reg) (c12 : Word)
  /-- `ROL Ra, Rb, Cx`, OP 1C (R141) -/
  | rol (a b : Reg) (n : Nat)
  /-- `ROR Ra, Rb, Cx`, OP 1D (R142) -/
  | ror (a b : Reg) (n : Nat)
  /-- `SHL Ra, Rb, Cx`, OP 1E (R143) -/
  | shl (a b : Reg) (n : Nat)
  /-- `SHR Ra, Rb, Cx`, OP 1F (R144) -/
  | shr (a b : Reg) (n : Nat)
  /-- `JEQ Cx`, OP 20 (R162) -/
  | jeq (c24 : Word)
  /-- `JNE Cx`, OP 21 (R163) -/
  | jne (c24 : Word)
  /-- `JLT Cx`, OP 22 (R164) -/
  | jlt (c24 : Word)
  /-- `JGT Cx`, OP 23 (R165) -/
  | jgt (c24 : Word)
  /-- `JLE Cx`, OP 24 (R166) -/
  | jle (c24 : Word)
  /-- `JGE Cx`, OP 25 (R167) -/
  | jge (c24 : Word)
  /-- `JMP Cx`, OP 26 (R168) -/
  | jmp (c24 : Word)
  /-- `SWI Cx`, OP 2A (R169) -/
  | swi (c24 : Word)
  /-- `CALL Cx`, OP 2B (R170) -/
  | call (c24 : Word)
  /-- `RET`, OP 2C (R171) -/
  | ret
  /-- `IRET`, OP 2D (R172) -/
  | iret
  /-- `PUSH Ra`, OP 30 (R181) -/
  | push (a : Reg)
  /-- `POP Ra`, OP 31 (R182) -/
  | pop (a : Reg)
  /-- `PUSHB Ra`, OP 32 (R183) -/
  | pushb (a : Reg)
  /-- `POPB Ra`, OP 33 (R184) -/
  | popb (a : Reg)
deriving DecidableEq, Repr

end Sys2Proof
end

