-- ==== Sys2Proof/WellFormed.lean ====
section
/-! DEFINITION. Which instructions have a machine word: every constant lies in the range of its field
(30_encoding.md R86, R99). Registers need no check, `Reg` has exactly the sixteen numbers of a 4-bit field. -/

namespace Sys2Proof

/-- The word, read as a signed number, fits a signed field of `bits` bits. -/
def fitsSigned (bits : Nat) (c : Word) : Bool :=
  decide (-(2 ^ (bits - 1) : Int) ≤ c.toInt) && decide (c.toInt < (2 ^ (bits - 1) : Int))

/-- A 16-bit constant: -32768..32767 (R99). -/
def fits16 (c : Word) : Bool := fitsSigned 16 c

/-- A 12-bit constant: -2048..2047 (R99). -/
def fits12 (c : Word) : Bool := fitsSigned 12 c

/-- A 24-bit constant: -8388608..8388607 (R99). -/
def fits24 (c : Word) : Bool := fitsSigned 24 c

/-- A shift or rotate count: 0..31 (R99, R146). -/
def fits5 (n : Nat) : Bool := decide (n < 32)

/-- The constants of the instruction fit their fields (R99). -/
def Instr.wf : Instr → Bool
  | .ld _ _ c16 => fits16 c16
  | .st _ _ c16 => fits16 c16
  | .ldb _ _ c16 => fits16 c16
  | .stb _ _ c16 => fits16 c16
  | .ldr _ _ _ => true
  | .str _ _ _ => true
  | .lbr _ _ _ => true
  | .sbr _ _ _ => true
  | .ldi _ c16 => fits16 c16
  | .cmp _ _ => true
  | .mov _ _ => true
  | .add _ _ _ => true
  | .sub _ _ _ => true
  | .mul _ _ _ => true
  | .div _ _ _ => true
  | .and _ _ _ => true
  | .or _ _ _ => true
  | .xor _ _ _ => true
  | .addi _ _ c12 => fits12 c12
  | .rol _ _ n => fits5 n
  | .ror _ _ n => fits5 n
  | .shl _ _ n => fits5 n
  | .shr _ _ n => fits5 n
  | .jeq c24 => fits24 c24
  | .jne c24 => fits24 c24
  | .jlt c24 => fits24 c24
  | .jgt c24 => fits24 c24
  | .jle c24 => fits24 c24
  | .jge c24 => fits24 c24
  | .jmp c24 => fits24 c24
  | .swi c24 => fits24 c24
  | .call c24 => fits24 c24
  | .ret => true
  | .iret => true
  | .push _ => true
  | .pop _ => true
  | .pushb _ => true
  | .popb _ => true

end Sys2Proof
end

