-- ==== Sys2Proof/Decode.lean ====
section
/-! DEFINITION. Decoding and encoding (30_encoding.md R80 to R94). The field positions of R82 to R85 are general
knowledge of CPU0, UNVERIFIED (assumption 7). -/

namespace Sys2Proof

/-! ### The fields of an instruction word (R82 to R87) -/

/-- OP, bits 31..24 in all three formats (R82). -/
def opField (ir : Word) : Byte := ir.extractLsb' 24 8

/-- Register number `a`, bits 23..20 (R83, R84). -/
def aField (ir : Word) : BitVec 4 := ir.extractLsb' 20 4

/-- Register number `b`, bits 19..16 (R83, R84). -/
def bField (ir : Word) : BitVec 4 := ir.extractLsb' 16 4

/-- Register number `c`, bits 15..12 (R83). -/
def cField (ir : Word) : BitVec 4 := ir.extractLsb' 12 4

/-- `c5 = IR[4:0]`, unsigned (R86). -/
def c5Field (ir : Word) : Nat := (ir.extractLsb' 0 5).toNat

/-- `c12 = sext_32(IR[11:0])` (R86). -/
def c12Field (ir : Word) : Word := (ir.extractLsb' 0 12).signExtend 32

/-- `c16 = sext_32(IR[15:0])` (R86). -/
def c16Field (ir : Word) : Word := (ir.extractLsb' 0 16).signExtend 32

/-- `c24 = sext_32(IR[23:0])` (R86). -/
def c24Field (ir : Word) : Word := (ir.extractLsb' 0 24).signExtend 32

/-- The register a 4-bit field names (R20). -/
def Reg.ofField (f : BitVec 4) : Reg :=
  match f.toNat with
  | 0 => .r0 | 1 => .r1 | 2 => .r2 | 3 => .r3 | 4 => .r4 | 5 => .r5 | 6 => .r6 | 7 => .r7
  | 8 => .r8 | 9 => .r9 | 10 => .r10 | 11 => .r11 | 12 => .r12 | 13 => .r13 | 14 => .r14 | _ => .r15

/-- The number of a register, as a 4-bit field holds it (R20). -/
def Reg.field : Reg → BitVec 4
  | .r0 => 0#4 | .r1 => 1#4 | .r2 => 2#4 | .r3 => 3#4 | .r4 => 4#4 | .r5 => 5#4 | .r6 => 6#4 | .r7 => 7#4
  | .r8 => 8#4 | .r9 => 9#4 | .r10 => 10#4 | .r11 => 11#4 | .r12 => 12#4 | .r13 => 13#4 | .r14 => 14#4
  | .r15 => 15#4

/-- The register that field `a` of a word names. -/
def regA (ir : Word) : Reg := Reg.ofField (aField ir)

/-- The register that field `b` of a word names. -/
def regB (ir : Word) : Reg := Reg.ofField (bField ir)

/-- The register that field `c` of a word names. -/
def regC (ir : Word) : Reg := Reg.ofField (cField ir)

/-! ### Decoding (R87 to R89) -/

/-- Why bytes spell no instruction. -/
inductive DecodeError where
  /-- the OP value is one of the 218 that the table does not list (R89) -/
  | unassignedOp (op : Byte)
  /-- fewer than the four bytes of an instruction (R80) -/
  | tooShort (length : Nat)
deriving DecidableEq, Repr

/-- The instruction a word spells, selected by OP alone; bits the instruction does not use are ignored
(R87, R88, R90). -/
def decodeWord (ir : Word) : Except DecodeError Instr :=
  match (opField ir).toNat with
  | 0x00 => .ok (.ld (regA ir) (regB ir) (c16Field ir))
  | 0x01 => .ok (.st (regA ir) (regB ir) (c16Field ir))
  | 0x02 => .ok (.ldb (regA ir) (regB ir) (c16Field ir))
  | 0x03 => .ok (.stb (regA ir) (regB ir) (c16Field ir))
  | 0x04 => .ok (.ldr (regA ir) (regB ir) (regC ir))
  | 0x05 => .ok (.str (regA ir) (regB ir) (regC ir))
  | 0x06 => .ok (.lbr (regA ir) (regB ir) (regC ir))
  | 0x07 => .ok (.sbr (regA ir) (regB ir) (regC ir))
  | 0x08 => .ok (.ldi (regA ir) (c16Field ir))
  | 0x10 => .ok (.cmp (regA ir) (regB ir))
  | 0x12 => .ok (.mov (regA ir) (regB ir))
  | 0x13 => .ok (.add (regA ir) (regB ir) (regC ir))
  | 0x14 => .ok (.sub (regA ir) (regB ir) (regC ir))
  | 0x15 => .ok (.mul (regA ir) (regB ir) (regC ir))
  | 0x16 => .ok (.div (regA ir) (regB ir) (regC ir))
  | 0x18 => .ok (.and (regA ir) (regB ir) (regC ir))
  | 0x19 => .ok (.or (regA ir) (regB ir) (regC ir))
  | 0x1A => .ok (.xor (regA ir) (regB ir) (regC ir))
  | 0x1B => .ok (.addi (regA ir) (regB ir) (c12Field ir))
  | 0x1C => .ok (.rol (regA ir) (regB ir) (c5Field ir))
  | 0x1D => .ok (.ror (regA ir) (regB ir) (c5Field ir))
  | 0x1E => .ok (.shl (regA ir) (regB ir) (c5Field ir))
  | 0x1F => .ok (.shr (regA ir) (regB ir) (c5Field ir))
  | 0x20 => .ok (.jeq (c24Field ir))
  | 0x21 => .ok (.jne (c24Field ir))
  | 0x22 => .ok (.jlt (c24Field ir))
  | 0x23 => .ok (.jgt (c24Field ir))
  | 0x24 => .ok (.jle (c24Field ir))
  | 0x25 => .ok (.jge (c24Field ir))
  | 0x26 => .ok (.jmp (c24Field ir))
  | 0x2A => .ok (.swi (c24Field ir))
  | 0x2B => .ok (.call (c24Field ir))
  | 0x2C => .ok .ret
  | 0x2D => .ok .iret
  | 0x30 => .ok (.push (regA ir))
  | 0x31 => .ok (.pop (regA ir))
  | 0x32 => .ok (.pushb (regA ir))
  | 0x33 => .ok (.popb (regA ir))
  | _ => .error (.unassignedOp (opField ir))

/-- The word that four bytes hold, big-endian: the first is at the lowest address (20_memory.md R50, R59). -/
def bigEndian (b0 b1 b2 b3 : Byte) : Word := b0 ++ b1 ++ b2 ++ b3

/-- The instruction at the front of a run of bytes and the bytes after it (R80). -/
def decode : List Byte → Except DecodeError (Instr × List Byte)
  | b0 :: b1 :: b2 :: b3 :: rest =>
    match decodeWord (bigEndian b0 b1 b2 b3) with
    | .ok i => .ok (i, rest)
    | .error e => .error e
  | bytes => .error (.tooShort bytes.length)

/-! ### Encoding (R94) -/

/-- The OP value of an instruction (R88). -/
def Instr.opcode : Instr → Byte
  | .ld _ _ _ => 0x00#8
  | .st _ _ _ => 0x01#8
  | .ldb _ _ _ => 0x02#8
  | .stb _ _ _ => 0x03#8
  | .ldr _ _ _ => 0x04#8
  | .str _ _ _ => 0x05#8
  | .lbr _ _ _ => 0x06#8
  | .sbr _ _ _ => 0x07#8
  | .ldi _ _ => 0x08#8
  | .cmp _ _ => 0x10#8
  | .mov _ _ => 0x12#8
  | .add _ _ _ => 0x13#8
  | .sub _ _ _ => 0x14#8
  | .mul _ _ _ => 0x15#8
  | .div _ _ _ => 0x16#8
  | .and _ _ _ => 0x18#8
  | .or _ _ _ => 0x19#8
  | .xor _ _ _ => 0x1A#8
  | .addi _ _ _ => 0x1B#8
  | .rol _ _ _ => 0x1C#8
  | .ror _ _ _ => 0x1D#8
  | .shl _ _ _ => 0x1E#8
  | .shr _ _ _ => 0x1F#8
  | .jeq _ => 0x20#8
  | .jne _ => 0x21#8
  | .jlt _ => 0x22#8
  | .jgt _ => 0x23#8
  | .jle _ => 0x24#8
  | .jge _ => 0x25#8
  | .jmp _ => 0x26#8
  | .swi _ => 0x2A#8
  | .call _ => 0x2B#8
  | .ret => 0x2C#8
  | .iret => 0x2D#8
  | .push _ => 0x30#8
  | .pop _ => 0x31#8
  | .pushb _ => 0x32#8
  | .popb _ => 0x33#8

/-- Format A: OP, Ra, Rb, Rc, a 12-bit Cx (R83, R94). -/
def formatA (op : Byte) (a b c : BitVec 4) (cx : BitVec 12) : Word := op ++ a ++ b ++ c ++ cx

/-- Format L: OP, Ra, Rb, a 16-bit Cx (R84, R94). -/
def formatL (op : Byte) (a b : BitVec 4) (cx : BitVec 16) : Word := op ++ a ++ b ++ cx

/-- Format J: OP, a 24-bit Cx (R85, R94). -/
def formatJ (op : Byte) (cx : BitVec 24) : Word := op ++ cx

/-- Format A with register operands only: the constant field is 0 (R90, R94). -/
def wordABC (i : Instr) (a b c : Reg) : Word := formatA i.opcode a.field b.field c.field 0#12

/-- Format A with two registers and a shift or rotate count in bits 4..0 (R94). -/
def wordShift (i : Instr) (a b : Reg) (n : Nat) : Word :=
  formatA i.opcode a.field b.field 0#4 ((BitVec.ofNat 5 n).setWidth 12)

/-- Format L with two registers and a 16-bit constant (R94). -/
def wordL (i : Instr) (a b : Reg) (c16 : Word) : Word := formatL i.opcode a.field b.field (c16.setWidth 16)

/-- Format J with a 24-bit constant (R94). -/
def wordJ (i : Instr) (c24 : Word) : Word := formatJ i.opcode (c24.setWidth 24)

/-- The canonical word of an instruction: every field its syntax column does not mention is 0 (R94). -/
def encode (i : Instr) : Word :=
  match i with
  | .ld a b c16 => wordL i a b c16
  | .st a b c16 => wordL i a b c16
  | .ldb a b c16 => wordL i a b c16
  | .stb a b c16 => wordL i a b c16
  | .ldr a b c => wordABC i a b c
  | .str a b c => wordABC i a b c
  | .lbr a b c => wordABC i a b c
  | .sbr a b c => wordABC i a b c
  | .ldi a c16 => wordL i a .r0 c16
  | .cmp a b => wordABC i a b .r0
  | .mov a b => wordABC i a b .r0
  | .add a b c => wordABC i a b c
  | .sub a b c => wordABC i a b c
  | .mul a b c => wordABC i a b c
  | .div a b c => wordABC i a b c
  | .and a b c => wordABC i a b c
  | .or a b c => wordABC i a b c
  | .xor a b c => wordABC i a b c
  | .addi a b c12 => formatA i.opcode a.field b.field 0#4 (c12.setWidth 12)
  | .rol a b n => wordShift i a b n
  | .ror a b n => wordShift i a b n
  | .shl a b n => wordShift i a b n
  | .shr a b n => wordShift i a b n
  | .jeq c24 => wordJ i c24
  | .jne c24 => wordJ i c24
  | .jlt c24 => wordJ i c24
  | .jgt c24 => wordJ i c24
  | .jle c24 => wordJ i c24
  | .jge c24 => wordJ i c24
  | .jmp c24 => wordJ i c24
  | .swi c24 => wordJ i c24
  | .call c24 => wordJ i c24
  | .ret => wordJ i 0#32
  | .iret => wordJ i 0#32
  | .push a => wordABC i a .r0 .r0
  | .pop a => wordABC i a .r0 .r0
  | .pushb a => wordABC i a .r0 .r0
  | .popb a => wordABC i a .r0 .r0

/-- The four bytes of a word, the most significant one first (20_memory.md R50). -/
def wordBytes (w : Word) : List Byte :=
  [w.extractLsb' 24 8, w.extractLsb' 16 8, w.extractLsb' 8 8, w.extractLsb' 0 8]

/-! ### The host's reading of the opcode table -/

/-- The word of a row: bits at and above `nbits` are 0. -/
def tableWord (nbits w : Nat) : Word := BitVec.ofNat 32 (w % 2 ^ nbits)

/-- What the decoder reads from an instruction whose bits are `w`, laid out big-endian as in memory (R59, R80). -/
def decodeTableWord (nbits w : Nat) : Option Instr :=
  match decode (wordBytes (tableWord nbits w)) with
  | .ok (i, _) => some i
  | .error _ => none

end Sys2Proof
end

