-- ==== Sys2Proof/Config.lean ====
section
/-! DEFINITION. The parameters of 00_scope.md R4 that the spec fixes by a decision. The OPEN parameters (`MEM_VALID`,
`RESET_PC`, `RESET_SW`) are in Machine/Platform.lean. `XLEN`, `ALEN` and `ILEN` (32) are the type `Word`, `NREG` (16)
is the type `Reg`. `ENTRY_SETS_M` is fixed at false and the spec defines no behaviour for true (D19): interrupt entry
simply has no clause that writes SW. -/

namespace Sys2Proof.Config

/-- How a loaded byte fills bits 31..8 of the destination: the two readings that do not depend on the destination's
old value (`LDB_EXTEND`, D11, U7). -/
inductive ByteExtend where
  /-- bits 31..8 become 0 -/
  | zero
  /-- bits 31..8 become copies of bit 7 -/
  | sign
deriving DecidableEq, Repr

/-- Bit of SW that holds N (R33; UNVERIFIED numbering, assumption 8). -/
def swN : Nat := 31
/-- Bit of SW that holds Z (R33; UNVERIFIED numbering, assumption 8). -/
def swZ : Nat := 30
/-- Bit of SW that holds C (R33; UNVERIFIED numbering, assumption 8). -/
def swC : Nat := 29
/-- Bit of SW that holds V (R33; UNVERIFIED numbering, assumption 8). -/
def swV : Nat := 28
/-- Bit of SW that holds I (R33; UNVERIFIED, assumption 8). -/
def swI : Nat := 7
/-- Bit of SW that holds T (R33; UNVERIFIED, assumption 8). -/
def swT : Nat := 6
/-- Bit of SW that holds M (R33; UNVERIFIED, assumption 8). -/
def swM : Nat := 0

/-- `LDB_EXTEND` (R4, D11; assumption 16). -/
def ldbExtend : ByteExtend := .zero

/-- `CMP_SIGNED` (R4, D7; assumption 17). -/
def cmpSigned : Bool := true

/-- `DIV_SIGNED` (R4, D10; assumption 17). -/
def divSigned : Bool := true

/-- `SHR_ARITHMETIC` (R4, D6; assumption 17). -/
def shrArithmetic : Bool := false

/-- `HALT_CONVENTION`: the word of `JMP -4`, at which a run counts as complete (R4, R233, D26; assumption 25). -/
def haltWord : Word := 0x26FFFFFC#32

end Sys2Proof.Config
end

