-- ==== Sys2Proof/Machine/Platform.lean ====
section
/-! DEFINITION. What the spec leaves to the platform: the memory that exists (`MEM_VALID`), `RESET_PC`, `RESET_SW`
(00_scope.md R4) and the values of registers and memory that no rule states (10_state.md R44). They are the values of
the reset state only; the map itself is part of State, so a claim about every state is about every map. -/

namespace Sys2Proof.Machine

/-- A run of byte addresses backed by memory: `base`, `base + 1`, ..., `base + size - 1` (20_memory.md R53). -/
structure Region where
  base : Nat
  size : Nat
deriving DecidableEq, Repr

/-- The address lies in the region. -/
def Region.contains (r : Region) (n : Nat) : Bool := decide (r.base ≤ n) && decide (n < r.base + r.size)

namespace Platform

/-- `MEM_VALID` at reset: 0x00000000..0x0000FFFF, the set D13 suggests (DESIGN CHOICE, assumption 3). -/
def resetMap : List Region := [⟨0, 0x10000⟩]

/-- `RESET_PC`, the value R44 suggests (DESIGN CHOICE, assumption 4). -/
def resetPc : Word := 0x00000000#32

/-- `RESET_SW`, the value R44 suggests: M = 1, every other bit 0 (DESIGN CHOICE, assumption 4). -/
def resetSw : Word := 0x00000001#32

/-- R1 to R11, R13 and R14 at reset, which the spec leaves without a value (DESIGN CHOICE, assumption 1). -/
def resetRegister : Word := 0x00000000#32

/-- What a byte of memory that nothing has written reads as (DESIGN CHOICE, assumption 2). -/
def unlistedByte : Byte := 0x00#8

end Platform

end Sys2Proof.Machine
end

