-- ==== Sys2Proof/Machine/State.lean ====
section
/-! DEFINITION. The state of CPU0 (10_state.md R46), its faults (60_exceptions.md R191), and the state after reset
(10_state.md R44, 70_reset_and_hazards.md R221). -/

namespace Sys2Proof.Machine

/-- The thirteen general registers that hold a value of their own (R46). R0 is the constant 0, R12 is `State.sw`,
R15 is `State.pc`. -/
structure Registers where
  r1 : Word
  r2 : Word
  r3 : Word
  r4 : Word
  r5 : Word
  r6 : Word
  r7 : Word
  r8 : Word
  r9 : Word
  r10 : Word
  r11 : Word
  /-- SP (R24) -/
  r13 : Word
  /-- LR (R25) -/
  r14 : Word
deriving DecidableEq, Repr

/-- Memory: a partial map from 32-bit addresses to bytes (R43). `backed` is its domain, the platform's `MEM_VALID`
(20_memory.md R53); `cells` lists its bytes by rising address, without those that read as an unlisted address does. -/
structure Memory where
  backed : List Region
  cells : List Host.Cell
deriving DecidableEq, Repr

/-- The architectural state (R46) and what the environment will present. -/
structure State where
  /-- R1 to R11, R13, R14 (R22, R24, R25) -/
  regs : Registers
  /-- R12, the status word (R23, R33) -/
  sw : Word
  /-- R15, the program counter; while the instruction at address `A` executes it holds `A + 4` (R26, R30) -/
  pc : Word
  /-- INT, an interrupt is in service (R39) -/
  int : Bool
  /-- memory (R43) -/
  mem : Memory
  /-- The model's own field: what the environment presents at the coming instruction boundaries, the next one first,
  `none` for no request, `some a` for a request with `INT_ADDR` `a`, and no request after the list's end (R46 last
  row, 60_exceptions.md R202; assumption 5). -/
  line : List (Option Word)
deriving DecidableEq, Repr

/-- The model-level stops of R191. Each is raised before the instruction changes any state and reports the address `A`
of the instruction, or the address that is not backed. -/
inductive Fault where
  /-- Raised by a fetch, load or store that touches an address `MEM_VALID` does not hold for (20_memory.md R53).
  Safe: the spec describes no bus error, so nothing is claimed about what the hardware does. -/
  | memUnmapped (addr : Word)
  /-- Raised by a step that fetched a word whose OP is unassigned (30_encoding.md R89). Safe: the model stops where
  the hardware may go on. -/
  | illegalInstruction (addr ir : Word)
  /-- Raised by an instruction that writes R12 in user mode (10_state.md R38, 60_exceptions.md R204). Safe: the source
  calls the action illegal and names no consequence. -/
  | userWriteSW (addr : Word)
  /-- Raised by DIV with a zero divisor (41_arithmetic.md R136). Safe: the source defines no result and no trap. -/
  | divideByZero (addr : Word)
deriving DecidableEq, Repr

/-- Why an instruction has no meaning in the model. No instruction of CPU0 is refused. -/
inductive Refusal where
  /-- Would be raised by an arm of `exec` whose instruction has no meaning yet; safe. No arm raises it. -/
  | notModelled (mnemonic : String)
deriving DecidableEq, Repr

/-- The machine right after reset (R44, R221): super mode, all interrupts disabled, INT = 0, `pc = RESET_PC`. The
registers the spec gives no value hold `Platform.resetRegister` (assumption 1). -/
def State.reset : State where
  regs :=
    { r1 := Platform.resetRegister
      r2 := Platform.resetRegister
      r3 := Platform.resetRegister
      r4 := Platform.resetRegister
      r5 := Platform.resetRegister
      r6 := Platform.resetRegister
      r7 := Platform.resetRegister
      r8 := Platform.resetRegister
      r9 := Platform.resetRegister
      r10 := Platform.resetRegister
      r11 := Platform.resetRegister
      r13 := Platform.resetRegister
      r14 := Platform.resetRegister }
  sw := Platform.resetSw
  pc := Platform.resetPc
  int := false
  mem := { backed := Platform.resetMap, cells := [] }
  line := []

end Sys2Proof.Machine
end

