-- ==== Sys2Proof/Machine/Flags.lean ====
section
/-! DEFINITION. The fields of the status word (10_state.md R33 to R38), the flag computation of CMP (R34,
41_arithmetic.md R131) and the conditions of the jumps (42_jump.md R161). -/

namespace Sys2Proof.Machine

/-- SW with bit `k` replaced by `v`, every other bit kept. -/
def setBit (sw : Word) (k : Nat) (v : Bool) : Word :=
  (sw &&& ~~~(BitVec.twoPow 32 k)) ||| (if v then BitVec.twoPow 32 k else 0#32)

/-- `SW.N` (R33). -/
def State.flagN (s : State) : Bool := s.sw.getLsbD Config.swN

/-- `SW.Z` (R33). -/
def State.flagZ (s : State) : Bool := s.sw.getLsbD Config.swZ

/-- `SW.C`: written only by a write of R12, read only by a read of R12 (R35). -/
def State.flagC (s : State) : Bool := s.sw.getLsbD Config.swC

/-- `SW.V`: written only by a write of R12, read only by a read of R12 (R35). -/
def State.flagV (s : State) : Bool := s.sw.getLsbD Config.swV

/-- `SW.I`, interrupts enabled (R36). -/
def State.flagI (s : State) : Bool := s.sw.getLsbD Config.swI

/-- `SW.T`, software interrupts enabled (R37). -/
def State.flagT (s : State) : Bool := s.sw.getLsbD Config.swT

/-- `SW.M`: super mode (R38). -/
def State.superMode (s : State) : Bool := s.sw.getLsbD Config.swM

/-- `p < q` for CMP: of the signed values, or of the unsigned ones under `CMP_SIGNED` = false (R131, D7). -/
def lessThan (signed : Bool) (p q : Word) : Bool :=
  if signed then decide (p.toInt < q.toInt) else decide (p.toNat < q.toNat)

/-- SW after `CMP`: N is "less", Z is "equal", every other bit is kept (R131, R34). -/
def compareFlags (sw p q : Word) : Word :=
  setBit (setBit sw Config.swN (lessThan Config.cmpSigned p q)) Config.swZ (decide (p = q))

/-- SW(=) (R161). -/
def State.condEQ (s : State) : Bool := s.flagZ

/-- SW(!=) (R161). -/
def State.condNE (s : State) : Bool := !s.flagZ

/-- SW(<) (R161). -/
def State.condLT (s : State) : Bool := s.flagN && !s.flagZ

/-- SW(>) (R161). -/
def State.condGT (s : State) : Bool := !s.flagN && !s.flagZ

/-- SW(<=) (R161). -/
def State.condLE (s : State) : Bool := s.flagN || s.flagZ

/-- SW(>=) (R161). -/
def State.condGE (s : State) : Bool := !s.flagN || s.flagZ

end Sys2Proof.Machine
end

