-- ==== Sys2Proof/Machine/Ops.lean ====
section
/-! DEFINITION. The named operations over registers and memory: register read and write (10_state.md R27, R28), memory
(20_memory.md R53 to R56), fetch (R59), and taking an interrupt and returning from one (60_exceptions.md R192 to
R199). -/

namespace Sys2Proof.Machine

/-! ### Field updates of State -/

/-- The state with other general registers. -/
def State.setRegs (s : State) (x : Registers) : State := { s with regs := x }

/-- The state with another status word. -/
def State.setSw (s : State) (x : Word) : State := { s with sw := x }

/-- The state with another program counter: `pc <- target`, any value (R31). -/
def State.setPc (s : State) (x : Word) : State := { s with pc := x }

/-- The state with another INT (R39). -/
def State.setInt (s : State) (x : Bool) : State := { s with int := x }

/-- The state with another memory. -/
def State.setMem (s : State) (x : Memory) : State := { s with mem := x }

/-- The state with another line. -/
def State.setLine (s : State) (x : List (Option Word)) : State := { s with line := x }

/-! ### Registers -/

/-- `x[i]` (R27): R0 reads 0, R12 reads SW, R15 reads the advanced `pc`. -/
def State.readReg (s : State) : Reg → Word
  | .r0 => 0#32
  | .r1 => s.regs.r1
  | .r2 => s.regs.r2
  | .r3 => s.regs.r3
  | .r4 => s.regs.r4
  | .r5 => s.regs.r5
  | .r6 => s.regs.r6
  | .r7 => s.regs.r7
  | .r8 => s.regs.r8
  | .r9 => s.regs.r9
  | .r10 => s.regs.r10
  | .r11 => s.regs.r11
  | .r12 => s.sw
  | .r13 => s.regs.r13
  | .r14 => s.regs.r14
  | .r15 => s.pc

/-- `x[i] <- v` (R28), without the mode check, which `withDest` makes: discarded for R0, all of SW for R12, a jump for
R15. -/
def State.writeReg (s : State) (r : Reg) (v : Word) : State :=
  match r with
  | .r0 => s
  | .r1 => s.setRegs { s.regs with r1 := v }
  | .r2 => s.setRegs { s.regs with r2 := v }
  | .r3 => s.setRegs { s.regs with r3 := v }
  | .r4 => s.setRegs { s.regs with r4 := v }
  | .r5 => s.setRegs { s.regs with r5 := v }
  | .r6 => s.setRegs { s.regs with r6 := v }
  | .r7 => s.setRegs { s.regs with r7 := v }
  | .r8 => s.setRegs { s.regs with r8 := v }
  | .r9 => s.setRegs { s.regs with r9 := v }
  | .r10 => s.setRegs { s.regs with r10 := v }
  | .r11 => s.setRegs { s.regs with r11 := v }
  | .r12 => s.setSw v
  | .r13 => s.setRegs { s.regs with r13 := v }
  | .r14 => s.setRegs { s.regs with r14 := v }
  | .r15 => s.setPc v

/-- The address `A` of the executing instruction: `pc` holds `A + 4` (R30). -/
def State.instrAddr (s : State) : Word := s.pc - 4#32

/-- The instruction may write register `a`: only R12 needs super mode (R38, R204). -/
def State.mayWrite (s : State) (a : Reg) : Bool := decide (a ≠ .r12) || s.superMode

/-- The check of an instruction with destination `a`, made before any state changes (R28, R38). -/
def withDest (a : Reg) (s : State) (k : Host.Outcome State Fault Refusal) : Host.Outcome State Fault Refusal :=
  if s.mayWrite a then k else .fault (.userWriteSW s.instrAddr)

/-- An instruction whose one effect is `x[a] <- v`. -/
def setDest (a : Reg) (v : Word) (s : State) : Host.Outcome State Fault Refusal :=
  withDest a s (.next (s.writeReg a v))

/-! ### Memory -/

/-- `MEM_VALID(addr)` (R53). -/
def Memory.isBacked (m : Memory) (addr : Word) : Bool := m.backed.any fun r => r.contains addr.toNat

/-- The byte listed at an address, or what an unlisted address reads as. -/
def lookupCell : List Host.Cell → Nat → Byte
  | [], _ => Platform.unlistedByte
  | (k, v) :: rest, n => if k = n then v else lookupCell rest n

/-- The list with a cell put before the first one of a higher address. -/
def insertCell (n : Nat) (v : Byte) : List Host.Cell → List Host.Cell
  | [] => [(n, v)]
  | (k, w) :: rest => if n < k then (n, v) :: (k, w) :: rest else (k, w) :: insertCell n v rest

/-- The list without the cells of an address. -/
def removeCell (n : Nat) (cells : List Host.Cell) : List Host.Cell := cells.filter fun c => decide (c.1 ≠ n)

/-- The list with the byte at an address replaced, in canonical form: a byte that reads as unlisted is not listed. -/
def writeCell (n : Nat) (v : Byte) (cells : List Host.Cell) : List Host.Cell :=
  if v = Platform.unlistedByte then removeCell n cells else insertCell n v (removeCell n cells)

/-- `Mem[addr]`, the byte at an address, for addresses that are backed (R55). -/
def Memory.byteAt (m : Memory) (addr : Word) : Byte := lookupCell m.cells addr.toNat

/-- `Mem[addr] <- v`, for addresses that are backed (R56). -/
def Memory.setByte (m : Memory) (addr : Word) (v : Byte) : Memory :=
  { m with cells := writeCell addr.toNat v m.cells }

/-- The four byte addresses of a word access, modulo 2^32 (R51, R54). -/
def wordAddrs (p : Word) : List Word := [p, p + 1#32, p + 2#32, p + 3#32]

/-- The first of the addresses that is not backed (R55, R56). -/
def Memory.firstUnbacked (m : Memory) (addrs : List Word) : Option Word := addrs.find? fun x => !m.isBacked x

/-- `MemRead(addr, 4)`, big-endian (R55). -/
def Memory.readWord (m : Memory) (p : Word) : Except Fault Word :=
  match m.firstUnbacked (wordAddrs p) with
  | some x => .error (.memUnmapped x)
  | none => .ok (bigEndian (m.byteAt p) (m.byteAt (p + 1#32)) (m.byteAt (p + 2#32)) (m.byteAt (p + 3#32)))

/-- `MemRead(addr, 1)` (R55). -/
def Memory.readByte (m : Memory) (p : Word) : Except Fault Byte :=
  match m.firstUnbacked [p] with
  | some x => .error (.memUnmapped x)
  | none => .ok (m.byteAt p)

/-- The four bytes of a word put in memory, the most significant one at the lowest address (R50, R56). -/
def Memory.putWord (m : Memory) (p v : Word) : Memory :=
  (((m.setByte p (v.extractLsb' 24 8)).setByte (p + 1#32) (v.extractLsb' 16 8)).setByte (p + 2#32)
    (v.extractLsb' 8 8)).setByte (p + 3#32) (v.extractLsb' 0 8)

/-- `MemWrite(addr, 4, v)`: all four addresses are checked before any byte is written (R56). -/
def Memory.writeWord (m : Memory) (p v : Word) : Except Fault Memory :=
  match m.firstUnbacked (wordAddrs p) with
  | some x => .error (.memUnmapped x)
  | none => .ok (m.putWord p v)

/-- `MemWrite(addr, 1, v)` (R56). -/
def Memory.writeByte (m : Memory) (p : Word) (v : Byte) : Except Fault Memory :=
  match m.firstUnbacked [p] with
  | some x => .error (.memUnmapped x)
  | none => .ok (m.setByte p v)

/-- The canonical form of the list of cells: addresses strictly rising, no byte that reads as unlisted. -/
abbrev canonical (cells : List Host.Cell) : Prop :=
  cells.Pairwise (fun c d => c.1 < d.1) ∧ ∀ c ∈ cells, c.2 ≠ Platform.unlistedByte

/-- The canonical form of memory: the cells are canonical and stand at backed 32-bit addresses. -/
abbrev Memory.wf (m : Memory) : Prop :=
  canonical m.cells ∧ ∀ c ∈ m.cells, c.1 < 2 ^ 32 ∧ m.isBacked (BitVec.ofNat 32 c.1) = true

/-! ### Loads and stores -/

/-- An instruction that loads the word at `ea` into register `a` (R111, R115). -/
def loadWord (a : Reg) (ea : Word) (s : State) : Host.Outcome State Fault Refusal :=
  withDest a s
    (match s.mem.readWord ea with
     | .error f => .fault f
     | .ok v => .next (s.writeReg a v))

/-- A loaded byte in the 32 bits of a register: byte 3 holds it, the others are filled (R57, D11). -/
def extendByte (v : Byte) : Word :=
  match Config.ldbExtend with
  | .zero => v.setWidth 32
  | .sign => v.signExtend 32

/-- An instruction that loads the byte at `ea` into register `a` (R113, R117). -/
def loadByte (a : Reg) (ea : Word) (s : State) : Host.Outcome State Fault Refusal :=
  withDest a s
    (match s.mem.readByte ea with
     | .error f => .fault f
     | .ok v => .next (s.writeReg a (extendByte v)))

/-- An instruction that stores the word `v` at `ea` (R112, R116). -/
def storeWord (ea v : Word) (s : State) : Host.Outcome State Fault Refusal :=
  match s.mem.writeWord ea v with
  | .error f => .fault f
  | .ok m => .next (s.setMem m)

/-- Byte 3 of a register, bits 7..0: the byte that a byte store stores (R6, R57). -/
def lowByte (v : Word) : Byte := v.extractLsb' 0 8

/-- An instruction that stores byte 3 of `v` at `ea` (R114, R118). -/
def storeByte (ea v : Word) (s : State) : Host.Outcome State Fault Refusal :=
  match s.mem.writeByte ea (lowByte v) with
  | .error f => .fault f
  | .ok m => .next (s.setMem m)

/-! ### Interrupts -/

/-- An SWI that executes is taken (R192). -/
def State.swiEnabled (s : State) : Bool := s.flagI && s.flagT && !s.int

/-- A hardware interrupt request at this boundary is taken (R192). -/
def State.hwiEnabled (s : State) : Bool := s.flagI && !s.int

/-- TAKING AN INTERRUPT, software or hardware: `x[14] <- pc; INT <- 1; pc <- target`, and nothing else (R195 to
R198). -/
def enterInterrupt (target : Word) (s : State) : State :=
  ((s.writeReg .r14 s.pc).setInt true).setPc target

/-- RETURNING FROM AN INTERRUPT: `pc <- x[14]; INT <- 0`, and nothing else (R172, R199). -/
def returnFromInterrupt (s : State) : State := (s.setPc (s.readReg .r14)).setInt false

/-- What the environment presents at this instruction boundary (R202). -/
def State.request (s : State) : Option Word :=
  match s.line with
  | [] => none
  | r :: _ => r

/-- The hardware interrupt taken at this boundary: its `INT_ADDR` (R192, R194, R196). -/
def State.takenRequest (s : State) : Option Word := if s.hwiEnabled then s.request else none

/-- The state after the boundary: a request that was presented is gone, taken or not (R202). -/
def State.passBoundary (s : State) : State := s.setLine s.line.tail

/-! ### Fetch -/

/-- The fetched instruction word, `IR = MemRead(pc, 4)` (00_scope.md R9, 20_memory.md R59). -/
def fetch (s : State) : Except Fault Word := s.mem.readWord s.pc

/-- `pc <- A + 4`, modulo 2^32 (R9, R30, R32). -/
def State.advance (s : State) : State := s.setPc (s.pc + 4#32)

/-! ### Placing an instruction, for the host -/

/-- Memory with a byte put at an address, the address made part of the map where it is not. -/
def Memory.place (m : Memory) (addr : Word) (v : Byte) : Memory :=
  if m.isBacked addr then m.setByte addr v
  else { backed := ⟨addr.toNat, 1⟩ :: m.backed, cells := writeCell addr.toNat v m.cells }

/-- The state whose next step fetches `w`: its four bytes stand at `pc`, and a request that would be taken at this
boundary is not presented. -/
def State.placeWord (s : State) (w : Word) : State :=
  let m := (((s.mem.place s.pc (w.extractLsb' 24 8)).place (s.pc + 1#32) (w.extractLsb' 16 8)).place (s.pc + 2#32)
    (w.extractLsb' 8 8)).place (s.pc + 3#32) (w.extractLsb' 0 8)
  match s.takenRequest with
  | none => s.setMem m
  | some _ => (s.setMem m).setLine (none :: s.line.tail)

end Sys2Proof.Machine
end

