-- ==== Sys2Proof/Machine/Operands.lean ====
section
/-! DEFINITION. Effective addresses (40_load_store.md R110), the arithmetic, logic, rotate and shift operations
(41_arithmetic.md R130, R146), and the target of a relative jump (42_jump.md R160). -/

namespace Sys2Proof.Machine

/-- Base plus constant, modulo 2^32 (R110). -/
def eaConst (s : State) (b : Reg) (c16 : Word) : Word := s.readReg b + c16

/-- Base plus index, modulo 2^32 (R110). -/
def eaIndex (s : State) (b c : Reg) : Word := s.readReg b + s.readReg c

/-- The target of a relative jump: the advanced `pc` plus the constant, modulo 2^32 (R160). -/
def jumpTarget (s : State) (c24 : Word) : Word := s.pc + c24

/-- The quotient for a divisor that is not 0: signed and truncated toward zero, so that -2^31 / -1 wraps to
0x80000000; or unsigned under `DIV_SIGNED` = false (R130, R136, D10). -/
def quotient (p q : Word) : Word :=
  if Config.divSigned then BitVec.ofInt 32 (p.toInt.tdiv q.toInt) else BitVec.ofNat 32 (p.toNat / q.toNat)

/-- Rotate left by a count 0..31 (R141). -/
def rotateLeft (v : Word) (n : Nat) : Word := if n = 0 then v else (v <<< n) ||| (v >>> (32 - n))

/-- Rotate right by a count 0..31 (R142). -/
def rotateRight (v : Word) (n : Nat) : Word := if n = 0 then v else (v >>> n) ||| (v <<< (32 - n))

/-- Shift left, zeros enter at bit 0 (R143). -/
def shiftLeft (v : Word) (n : Nat) : Word := v <<< n

/-- Shift right: zeros enter at bit 31, or copies of bit 31 under `SHR_ARITHMETIC` = true (R144, D6). -/
def shiftRight (v : Word) (n : Nat) : Word := if Config.shrArithmetic then v.sshiftRight n else v >>> n

end Sys2Proof.Machine
end

