-- ==== Sys2Proof/Machine/Arithmetic.lean ====
section
/-! DEFINITION. The arithmetic and logic instructions (41_arithmetic.md). Each meaning runs on the state in which `pc`
is already `A + 4` (00_scope.md R9, 10_state.md R30). Only CMP writes flags (R145). -/

namespace Sys2Proof.Machine

/-- CMP, compare: N and Z of SW, nothing else, in either mode (R131, R204). -/
def execCmp (a b : Reg) (s : State) : Host.Outcome State Fault Refusal :=
  .next (s.setSw (compareFlags s.sw (s.readReg a) (s.readReg b)))

/-- MOV, move (R132). -/
def execMov (a b : Reg) (s : State) : Host.Outcome State Fault Refusal := setDest a (s.readReg b) s

/-- ADD, add (R133). -/
def execAdd (a b c : Reg) (s : State) : Host.Outcome State Fault Refusal :=
  setDest a (s.readReg b + s.readReg c) s

/-- SUB, subtract (R134). -/
def execSub (a b c : Reg) (s : State) : Host.Outcome State Fault Refusal :=
  setDest a (s.readReg b - s.readReg c) s

/-- MUL, multiply, the low 32 bits of the product (R135). -/
def execMul (a b c : Reg) (s : State) : Host.Outcome State Fault Refusal :=
  setDest a (s.readReg b * s.readReg c) s

/-- DIV, divide; the mode check comes before the check for a zero divisor (R136, R191). -/
def execDiv (a b c : Reg) (s : State) : Host.Outcome State Fault Refusal :=
  withDest a s
    (if s.readReg c = 0#32 then .fault (.divideByZero s.instrAddr)
     else .next (s.writeReg a (quotient (s.readReg b) (s.readReg c))))

/-- AND, bitwise and (R137). -/
def execAnd (a b c : Reg) (s : State) : Host.Outcome State Fault Refusal :=
  setDest a (s.readReg b &&& s.readReg c) s

/-- OR, bitwise or (R138). -/
def execOr (a b c : Reg) (s : State) : Host.Outcome State Fault Refusal :=
  setDest a (s.readReg b ||| s.readReg c) s

/-- XOR, bitwise exclusive or (R139). -/
def execXor (a b c : Reg) (s : State) : Host.Outcome State Fault Refusal :=
  setDest a (s.readReg b ^^^ s.readReg c) s

/-- ADDI, add constant (R140). -/
def execAddi (a b : Reg) (c12 : Word) (s : State) : Host.Outcome State Fault Refusal :=
  setDest a (s.readReg b + c12) s

/-- ROL, rotate left (R141). -/
def execRol (a b : Reg) (n : Nat) (s : State) : Host.Outcome State Fault Refusal :=
  setDest a (rotateLeft (s.readReg b) n) s

/-- ROR, rotate right (R142). -/
def execRor (a b : Reg) (n : Nat) (s : State) : Host.Outcome State Fault Refusal :=
  setDest a (rotateRight (s.readReg b) n) s

/-- SHL, shift left (R143). -/
def execShl (a b : Reg) (n : Nat) (s : State) : Host.Outcome State Fault Refusal :=
  setDest a (shiftLeft (s.readReg b) n) s

/-- SHR, shift right (R144). -/
def execShr (a b : Reg) (n : Nat) (s : State) : Host.Outcome State Fault Refusal :=
  setDest a (shiftRight (s.readReg b) n) s

end Sys2Proof.Machine
end

