-- ==== Sys2Proof/Machine/Jump.lean ====
section
/-! DEFINITION. The jump instructions (42_jump.md), with SWI and IRET (60_exceptions.md). Each meaning runs on the
state in which `pc` is already `A + 4` (00_scope.md R9, 10_state.md R30). -/

namespace Sys2Proof.Machine

/-- A relative jump if a condition holds; otherwise `pc` stays `A + 4` (R160, R161). -/
def jumpIf (cond : Bool) (c24 : Word) (s : State) : Host.Outcome State Fault Refusal :=
  .next (if cond then s.setPc (jumpTarget s c24) else s)

/-- JEQ, jump if equal (R162). -/
def execJeq (c24 : Word) (s : State) : Host.Outcome State Fault Refusal := jumpIf s.condEQ c24 s

/-- JNE, jump if not equal (R163). -/
def execJne (c24 : Word) (s : State) : Host.Outcome State Fault Refusal := jumpIf s.condNE c24 s

/-- JLT, jump if less than (R164). -/
def execJlt (c24 : Word) (s : State) : Host.Outcome State Fault Refusal := jumpIf s.condLT c24 s

/-- JGT, jump if greater than (R165). -/
def execJgt (c24 : Word) (s : State) : Host.Outcome State Fault Refusal := jumpIf s.condGT c24 s

/-- JLE, jump if less than or equal (R166). -/
def execJle (c24 : Word) (s : State) : Host.Outcome State Fault Refusal := jumpIf s.condLE c24 s

/-- JGE, jump if greater than or equal (R167). -/
def execJge (c24 : Word) (s : State) : Host.Outcome State Fault Refusal := jumpIf s.condGE c24 s

/-- JMP, jump (R168). -/
def execJmp (c24 : Word) (s : State) : Host.Outcome State Fault Refusal := .next (s.setPc (jumpTarget s c24))

/-- SWI, software interrupt: the entry if it is enabled, otherwise nothing (R169, R195, R212). -/
def execSwi (c24 : Word) (s : State) : Host.Outcome State Fault Refusal :=
  .next (if s.swiEnabled then enterInterrupt c24 s else s)

/-- CALL, jump to subroutine: `x[14] <- pc`, then the jump from the same `pc` (R170). -/
def execCall (c24 : Word) (s : State) : Host.Outcome State Fault Refusal :=
  .next ((s.writeReg .r14 s.pc).setPc (jumpTarget s c24))

/-- RET, return (R171). -/
def execRet (s : State) : Host.Outcome State Fault Refusal := .next (s.setPc (s.readReg .r14))

/-- IRET, return from interrupt, in either mode and with INT at either value (R172). -/
def execIret (s : State) : Host.Outcome State Fault Refusal := .next (returnFromInterrupt s)

end Sys2Proof.Machine
end

