-- ==== Sys2Proof/Machine/LoadStore.lean ====
section
/-! DEFINITION. The load and store instructions (40_load_store.md). Each meaning runs on the state in which `pc` is
already `A + 4` (00_scope.md R9, 10_state.md R30). -/

namespace Sys2Proof.Machine

/-- LD, load word (R111). -/
def execLd (a b : Reg) (c16 : Word) (s : State) : Host.Outcome State Fault Refusal := loadWord a (eaConst s b c16) s

/-- ST, store word (R112, C1). -/
def execSt (a b : Reg) (c16 : Word) (s : State) : Host.Outcome State Fault Refusal :=
  storeWord (eaConst s b c16) (s.readReg a) s

/-- LDB, load byte (R113). -/
def execLdb (a b : Reg) (c16 : Word) (s : State) : Host.Outcome State Fault Refusal := loadByte a (eaConst s b c16) s

/-- STB, store byte (R114, C1). -/
def execStb (a b : Reg) (c16 : Word) (s : State) : Host.Outcome State Fault Refusal :=
  storeByte (eaConst s b c16) (s.readReg a) s

/-- LDR, load word, register form (R115). -/
def execLdr (a b c : Reg) (s : State) : Host.Outcome State Fault Refusal := loadWord a (eaIndex s b c) s

/-- STR, store word, register form (R116, C1). -/
def execStr (a b c : Reg) (s : State) : Host.Outcome State Fault Refusal :=
  storeWord (eaIndex s b c) (s.readReg a) s

/-- LBR, load byte, register form (R117). -/
def execLbr (a b c : Reg) (s : State) : Host.Outcome State Fault Refusal := loadByte a (eaIndex s b c) s

/-- SBR, store byte, register form (R118, C1). -/
def execSbr (a b c : Reg) (s : State) : Host.Outcome State Fault Refusal :=
  storeByte (eaIndex s b c) (s.readReg a) s

/-- LDI, load constant (R119). -/
def execLdi (a : Reg) (c16 : Word) (s : State) : Host.Outcome State Fault Refusal := setDest a c16 s

end Sys2Proof.Machine
end

