-- ==== Sys2Proof/Machine/Stack.lean ====
section
/-! DEFINITION. The stack instructions (43_stack.md): full descending, SP arithmetic modulo 2^32, the statements in the
order the rules write them (R10, R180, D27). Each meaning runs on the state in which `pc` is already `A + 4`
(00_scope.md R9, 10_state.md R30). -/

namespace Sys2Proof.Machine

/-- `x[13] <- (x[13] - n) mod 2^32`, the first statement of a push (R180). -/
def State.lowerSp (s : State) (n : Word) : State := s.writeReg .r13 (s.readReg .r13 - n)

/-- `x[13] <- (x[13] + n) mod 2^32`, the last statement of a pop (R180). -/
def State.raiseSp (s : State) (n : Word) : State := s.writeReg .r13 (s.readReg .r13 + n)

/-- PUSH, push word: SP is decremented first, and `x[a]` is read after it (R181). -/
def execPush (a : Reg) (s : State) : Host.Outcome State Fault Refusal :=
  storeWord ((s.lowerSp 4#32).readReg .r13) ((s.lowerSp 4#32).readReg a) (s.lowerSp 4#32)

/-- POP, pop word: Ra is written first, and SP is read again after it (R182). -/
def execPop (a : Reg) (s : State) : Host.Outcome State Fault Refusal :=
  withDest a s
    (match s.mem.readWord (s.readReg .r13) with
     | .error f => .fault f
     | .ok v => .next ((s.writeReg a v).raiseSp 4#32))

/-- PUSHB, push byte (R183). -/
def execPushb (a : Reg) (s : State) : Host.Outcome State Fault Refusal :=
  storeByte ((s.lowerSp 1#32).readReg .r13) ((s.lowerSp 1#32).readReg a) (s.lowerSp 1#32)

/-- POPB, pop byte (R184). -/
def execPopb (a : Reg) (s : State) : Host.Outcome State Fault Refusal :=
  withDest a s
    (match s.mem.readByte (s.readReg .r13) with
     | .error f => .fault f
     | .ok v => .next ((s.writeReg a (extendByte v)).raiseSp 1#32))

end Sys2Proof.Machine
end

