-- ==== Sys2Proof/Machine/Dispatch.lean ====
section
/-! DEFINITION. The meaning of every instruction, one arm per constructor of `Instr`. `exec` runs on the state in which
`pc` already holds `A + 4` (00_scope.md R9 step 5). -/

namespace Sys2Proof.Machine

def exec (i : Instr) (s : State) : Host.Outcome State Fault Refusal :=
  match i with
  | .ld a b c16 => Sys2Proof.Machine.execLd a b c16 s
  | .st a b c16 => Sys2Proof.Machine.execSt a b c16 s
  | .ldb a b c16 => Sys2Proof.Machine.execLdb a b c16 s
  | .stb a b c16 => Sys2Proof.Machine.execStb a b c16 s
  | .ldr a b c => Sys2Proof.Machine.execLdr a b c s
  | .str a b c => Sys2Proof.Machine.execStr a b c s
  | .lbr a b c => Sys2Proof.Machine.execLbr a b c s
  | .sbr a b c => Sys2Proof.Machine.execSbr a b c s
  | .ldi a c16 => Sys2Proof.Machine.execLdi a c16 s
  | .cmp a b => Sys2Proof.Machine.execCmp a b s
  | .mov a b => Sys2Proof.Machine.execMov a b s
  | .add a b c => Sys2Proof.Machine.execAdd a b c s
  | .sub a b c => Sys2Proof.Machine.execSub a b c s
  | .mul a b c => Sys2Proof.Machine.execMul a b c s
  | .div a b c => Sys2Proof.Machine.execDiv a b c s
  | .and a b c => Sys2Proof.Machine.execAnd a b c s
  | .or a b c => Sys2Proof.Machine.execOr a b c s
  | .xor a b c => Sys2Proof.Machine.execXor a b c s
  | .addi a b c12 => Sys2Proof.Machine.execAddi a b c12 s
  | .rol a b n => Sys2Proof.Machine.execRol a b n s
  | .ror a b n => Sys2Proof.Machine.execRor a b n s
  | .shl a b n => Sys2Proof.Machine.execShl a b n s
  | .shr a b n => Sys2Proof.Machine.execShr a b n s
  | .jeq c24 => Sys2Proof.Machine.execJeq c24 s
  | .jne c24 => Sys2Proof.Machine.execJne c24 s
  | .jlt c24 => Sys2Proof.Machine.execJlt c24 s
  | .jgt c24 => Sys2Proof.Machine.execJgt c24 s
  | .jle c24 => Sys2Proof.Machine.execJle c24 s
  | .jge c24 => Sys2Proof.Machine.execJge c24 s
  | .jmp c24 => Sys2Proof.Machine.execJmp c24 s
  | .swi c24 => Sys2Proof.Machine.execSwi c24 s
  | .call c24 => Sys2Proof.Machine.execCall c24 s
  | .ret => Sys2Proof.Machine.execRet s
  | .iret => Sys2Proof.Machine.execIret s
  | .push a => Sys2Proof.Machine.execPush a s
  | .pop a => Sys2Proof.Machine.execPop a s
  | .pushb a => Sys2Proof.Machine.execPushb a s
  | .popb a => Sys2Proof.Machine.execPopb a s

end Sys2Proof.Machine
end

