-- ==== Sys2Proof/Machine/Step.lean ====
section
/-! DEFINITION. One step: a hardware interrupt entry if one is taken at this boundary, otherwise one instruction
(00_scope.md R9, 60_exceptions.md R194, R201, 70_reset_and_hazards.md R234). -/

namespace Sys2Proof.Machine

/-- Fetch, advance `pc`, decode, execute (R9). A fault of the fetch comes before one of the decoding, that before one
of the execution (R191). -/
def runInstruction (s : State) : Host.Outcome State Fault Refusal :=
  match fetch s with
  | .error f => .fault f
  | .ok ir =>
    match decodeWord ir with
    | .error _ => .fault (.illegalInstruction s.pc ir)
    | .ok i => exec i s.advance

/-- One step. A request that is taken comes before the fetch of the next instruction (R201). -/
def step (s : State) : Host.Outcome State Fault Refusal :=
  match s.takenRequest with
  | some addr => .next (enterInterrupt addr s.passBoundary)
  | none => runInstruction s.passBoundary

/-- The state whose next step runs the instruction with the bits `w` of a row of `nbits` bits. -/
def State.withFetchWord (s : State) (nbits w : Nat) : State := s.placeWord (tableWord nbits w)

end Sys2Proof.Machine
end

