-- ==== Sys2Proof/Assembly.lean ====
section
/-! DEFINITION. The assembly language of 30_encoding.md R95 to R97: the mnemonic and the syntax column of R88 for
every instruction, and the constant of a relative jump. The machine does not use this file. -/

namespace Sys2Proof

/-- The mnemonic of an instruction (R88). -/
def Instr.mnemonic : Instr → String
  | .ld _ _ _ => "LD"
  | .st _ _ _ => "ST"
  | .ldb _ _ _ => "LDB"
  | .stb _ _ _ => "STB"
  | .ldr _ _ _ => "LDR"
  | .str _ _ _ => "STR"
  | .lbr _ _ _ => "LBR"
  | .sbr _ _ _ => "SBR"
  | .ldi _ _ => "LDI"
  | .cmp _ _ => "CMP"
  | .mov _ _ => "MOV"
  | .add _ _ _ => "ADD"
  | .sub _ _ _ => "SUB"
  | .mul _ _ _ => "MUL"
  | .div _ _ _ => "DIV"
  | .and _ _ _ => "AND"
  | .or _ _ _ => "OR"
  | .xor _ _ _ => "XOR"
  | .addi _ _ _ => "ADDI"
  | .rol _ _ _ => "ROL"
  | .ror _ _ _ => "ROR"
  | .shl _ _ _ => "SHL"
  | .shr _ _ _ => "SHR"
  | .jeq _ => "JEQ"
  | .jne _ => "JNE"
  | .jlt _ => "JLT"
  | .jgt _ => "JGT"
  | .jle _ => "JLE"
  | .jge _ => "JGE"
  | .jmp _ => "JMP"
  | .swi _ => "SWI"
  | .call _ => "CALL"
  | .ret => "RET"
  | .iret => "IRET"
  | .push _ => "PUSH"
  | .pop _ => "POP"
  | .pushb _ => "PUSHB"
  | .popb _ => "POPB"

/-- A register operand: `R` and the decimal number (R95). -/
def Reg.text : Reg → String
  | .r0 => "R0" | .r1 => "R1" | .r2 => "R2" | .r3 => "R3" | .r4 => "R4" | .r5 => "R5" | .r6 => "R6" | .r7 => "R7"
  | .r8 => "R8" | .r9 => "R9" | .r10 => "R10" | .r11 => "R11" | .r12 => "R12" | .r13 => "R13" | .r14 => "R14"
  | .r15 => "R15"

/-- A constant operand: a decimal number with its sign (R95). -/
def constText (c : Word) : String := toString c.toInt

/-- A memory operand of base and constant, `[Rb+Cx]`, or `[Rb-n]` for a negative constant as 95_test_vectors.md
writes it (R95). -/
def memText (b : Reg) (c : Word) : String :=
  "[" ++ b.text ++ (if c.toInt < 0 then "" else "+") ++ constText c ++ "]"

/-- A memory operand of base and index, `[Rb+Rc]` (R95). -/
def indexText (b c : Reg) : String := "[" ++ b.text ++ "+" ++ c.text ++ "]"

/-- The operands of an instruction in the order of the syntax column (R88, R95). -/
def Instr.operandTexts : Instr → List String
  | .ld a b c16 => [a.text, memText b c16]
  | .st a b c16 => [a.text, memText b c16]
  | .ldb a b c16 => [a.text, memText b c16]
  | .stb a b c16 => [a.text, memText b c16]
  | .ldr a b c => [a.text, indexText b c]
  | .str a b c => [a.text, indexText b c]
  | .lbr a b c => [a.text, indexText b c]
  | .sbr a b c => [a.text, indexText b c]
  | .ldi a c16 => [a.text, constText c16]
  | .cmp a b => [a.text, b.text]
  | .mov a b => [a.text, b.text]
  | .add a b c => [a.text, b.text, c.text]
  | .sub a b c => [a.text, b.text, c.text]
  | .mul a b c => [a.text, b.text, c.text]
  | .div a b c => [a.text, b.text, c.text]
  | .and a b c => [a.text, b.text, c.text]
  | .or a b c => [a.text, b.text, c.text]
  | .xor a b c => [a.text, b.text, c.text]
  | .addi a b c12 => [a.text, b.text, constText c12]
  | .rol a b n => [a.text, b.text, toString n]
  | .ror a b n => [a.text, b.text, toString n]
  | .shl a b n => [a.text, b.text, toString n]
  | .shr a b n => [a.text, b.text, toString n]
  | .jeq c24 => [constText c24]
  | .jne c24 => [constText c24]
  | .jlt c24 => [constText c24]
  | .jgt c24 => [constText c24]
  | .jle c24 => [constText c24]
  | .jge c24 => [constText c24]
  | .jmp c24 => [constText c24]
  | .swi c24 => [constText c24]
  | .call c24 => [constText c24]
  | .ret => []
  | .iret => []
  | .push a => [a.text]
  | .pop a => [a.text]
  | .pushb a => [a.text]
  | .popb a => [a.text]

/-- Operands separated by commas (R95). -/
def commaText : List String → String
  | [] => ""
  | [x] => " " ++ x
  | x :: rest => " " ++ x ++ "," ++ commaText rest

/-- The assembly statement of an instruction: the mnemonic and its operands (R95). -/
def Instr.text (i : Instr) : String := i.mnemonic ++ commaText i.operandTexts

/-- The base register that the short memory operand `[Cx]` stands for: `[Cx]` is `[R0+Cx]` (R97, D33). -/
def shortBase : Reg := .r0

/-- `LD Ra, [Cx]` (R97). -/
def ldShort (a : Reg) (c16 : Word) : Instr := .ld a shortBase c16

/-- `ST Ra, [Cx]` (R97). -/
def stShort (a : Reg) (c16 : Word) : Instr := .st a shortBase c16

/-- `LDB Ra, [Cx]` (R97). -/
def ldbShort (a : Reg) (c16 : Word) : Instr := .ldb a shortBase c16

/-- `STB Ra, [Cx]` (R97). -/
def stbShort (a : Reg) (c16 : Word) : Instr := .stb a shortBase c16

/-- The short memory operand, `[Cx]` (R97). -/
def shortMemText (c : Word) : String := "[" ++ constText c ++ "]"

/-- A memory operand of base and constant in its short form, where it has one (R97). -/
def shortestMemText (b : Reg) (c : Word) : String := if b = shortBase then shortMemText c else memText b c

/-- The assembly statement with the short memory operand where the instruction has one: the four instructions of base
and constant with base R0 (R97). Every other instruction has its one text. -/
def Instr.shortText (i : Instr) : String :=
  match i with
  | .ld a b c16 => i.mnemonic ++ commaText [a.text, shortestMemText b c16]
  | .st a b c16 => i.mnemonic ++ commaText [a.text, shortestMemText b c16]
  | .ldb a b c16 => i.mnemonic ++ commaText [a.text, shortestMemText b c16]
  | .stb a b c16 => i.mnemonic ++ commaText [a.text, shortestMemText b c16]
  | .ldr _ _ _ => i.text
  | .str _ _ _ => i.text
  | .lbr _ _ _ => i.text
  | .sbr _ _ _ => i.text
  | .ldi _ _ => i.text
  | .cmp _ _ => i.text
  | .mov _ _ => i.text
  | .add _ _ _ => i.text
  | .sub _ _ _ => i.text
  | .mul _ _ _ => i.text
  | .div _ _ _ => i.text
  | .and _ _ _ => i.text
  | .or _ _ _ => i.text
  | .xor _ _ _ => i.text
  | .addi _ _ _ => i.text
  | .rol _ _ _ => i.text
  | .ror _ _ _ => i.text
  | .shl _ _ _ => i.text
  | .shr _ _ _ => i.text
  | .jeq _ => i.text
  | .jne _ => i.text
  | .jlt _ => i.text
  | .jgt _ => i.text
  | .jle _ => i.text
  | .jge _ => i.text
  | .jmp _ => i.text
  | .swi _ => i.text
  | .call _ => i.text
  | .ret => i.text
  | .iret => i.text
  | .push _ => i.text
  | .pop _ => i.text
  | .pushb _ => i.text
  | .popb _ => i.text

/-- The constant a relative jump at address `A` needs to reach `target` (R96). -/
def jumpConstant (addr target : Word) : Word := target - (addr + 4#32)

end Sys2Proof
end

