-- ==== Sys2Proof/Safety.lean ====
section
/-! DEFINITION. The terms claims are stated in: what an instruction may change and nothing else, which instructions
have a destination register or store to memory, which steps run which instruction, and when a run is complete. -/

namespace Sys2Proof

/-- The register an instruction's rule writes with `x[a] <- v`: the list of 60_exceptions.md R204. The implicit
updates of R13 and R14 by the stack instructions, CALL and SWI are not in it. -/
def Instr.destination : Instr → Option Reg
  | .ld a _ _ => some a
  | .st _ _ _ => none
  | .ldb a _ _ => some a
  | .stb _ _ _ => none
  | .ldr a _ _ => some a
  | .str _ _ _ => none
  | .lbr a _ _ => some a
  | .sbr _ _ _ => none
  | .ldi a _ => some a
  | .cmp _ _ => none
  | .mov a _ => some a
  | .add a _ _ => some a
  | .sub a _ _ => some a
  | .mul a _ _ => some a
  | .div a _ _ => some a
  | .and a _ _ => some a
  | .or a _ _ => some a
  | .xor a _ _ => some a
  | .addi a _ _ => some a
  | .rol a _ _ => some a
  | .ror a _ _ => some a
  | .shl a _ _ => some a
  | .shr a _ _ => some a
  | .jeq _ => none
  | .jne _ => none
  | .jlt _ => none
  | .jgt _ => none
  | .jle _ => none
  | .jge _ => none
  | .jmp _ => none
  | .swi _ => none
  | .call _ => none
  | .ret => none
  | .iret => none
  | .push _ => none
  | .pop a => some a
  | .pushb _ => none
  | .popb a => some a

/-- The instructions that write memory (20_memory.md R60). -/
def Instr.stores : Instr → Bool
  | .ld _ _ _ => false
  | .st _ _ _ => true
  | .ldb _ _ _ => false
  | .stb _ _ _ => true
  | .ldr _ _ _ => false
  | .str _ _ _ => true
  | .lbr _ _ _ => false
  | .sbr _ _ _ => true
  | .ldi _ _ => false
  | .cmp _ _ => false
  | .mov _ _ => false
  | .add _ _ _ => false
  | .sub _ _ _ => false
  | .mul _ _ _ => false
  | .div _ _ _ => false
  | .and _ _ _ => false
  | .or _ _ _ => false
  | .xor _ _ _ => false
  | .addi _ _ _ => false
  | .rol _ _ _ => false
  | .ror _ _ _ => false
  | .shl _ _ _ => false
  | .shr _ _ _ => false
  | .jeq _ => false
  | .jne _ => false
  | .jlt _ => false
  | .jgt _ => false
  | .jle _ => false
  | .jge _ => false
  | .jmp _ => false
  | .swi _ => false
  | .call _ => false
  | .ret => false
  | .iret => false
  | .push _ => true
  | .pop _ => false
  | .pushb _ => true
  | .popb _ => false

/-- The jump family, whose rules assign `pc` (10_state.md R31, 42_jump.md). -/
def Instr.jumps : Instr → Bool
  | .ld _ _ _ => false
  | .st _ _ _ => false
  | .ldb _ _ _ => false
  | .stb _ _ _ => false
  | .ldr _ _ _ => false
  | .str _ _ _ => false
  | .lbr _ _ _ => false
  | .sbr _ _ _ => false
  | .ldi _ _ => false
  | .cmp _ _ => false
  | .mov _ _ => false
  | .add _ _ _ => false
  | .sub _ _ _ => false
  | .mul _ _ _ => false
  | .div _ _ _ => false
  | .and _ _ _ => false
  | .or _ _ _ => false
  | .xor _ _ _ => false
  | .addi _ _ _ => false
  | .rol _ _ _ => false
  | .ror _ _ _ => false
  | .shl _ _ _ => false
  | .shr _ _ _ => false
  | .jeq _ => true
  | .jne _ => true
  | .jlt _ => true
  | .jgt _ => true
  | .jle _ => true
  | .jge _ => true
  | .jmp _ => true
  | .swi _ => true
  | .call _ => true
  | .ret => true
  | .iret => true
  | .push _ => false
  | .pop _ => false
  | .pushb _ => false
  | .popb _ => false

/-- The bits of the word that the instruction does not use: the table of 30_encoding.md R90. -/
def Instr.unusedBits : Instr → Word
  | .ld _ _ _ => 0x00000000#32
  | .st _ _ _ => 0x00000000#32
  | .ldb _ _ _ => 0x00000000#32
  | .stb _ _ _ => 0x00000000#32
  | .ldr _ _ _ => 0x00000FFF#32
  | .str _ _ _ => 0x00000FFF#32
  | .lbr _ _ _ => 0x00000FFF#32
  | .sbr _ _ _ => 0x00000FFF#32
  | .ldi _ _ => 0x000F0000#32
  | .cmp _ _ => 0x0000FFFF#32
  | .mov _ _ => 0x0000FFFF#32
  | .add _ _ _ => 0x00000FFF#32
  | .sub _ _ _ => 0x00000FFF#32
  | .mul _ _ _ => 0x00000FFF#32
  | .div _ _ _ => 0x00000FFF#32
  | .and _ _ _ => 0x00000FFF#32
  | .or _ _ _ => 0x00000FFF#32
  | .xor _ _ _ => 0x00000FFF#32
  | .addi _ _ _ => 0x0000F000#32
  | .rol _ _ _ => 0x0000FFE0#32
  | .ror _ _ _ => 0x0000FFE0#32
  | .shl _ _ _ => 0x0000FFE0#32
  | .shr _ _ _ => 0x0000FFE0#32
  | .jeq _ => 0x00000000#32
  | .jne _ => 0x00000000#32
  | .jlt _ => 0x00000000#32
  | .jgt _ => 0x00000000#32
  | .jle _ => 0x00000000#32
  | .jge _ => 0x00000000#32
  | .jmp _ => 0x00000000#32
  | .swi _ => 0x00000000#32
  | .call _ => 0x00000000#32
  | .ret => 0x00FFFFFF#32
  | .iret => 0x00FFFFFF#32
  | .push _ => 0x000FFFFF#32
  | .pop _ => 0x000FFFFF#32
  | .pushb _ => 0x000FFFFF#32
  | .popb _ => 0x000FFFFF#32

/-- The 218 OP values the table does not list (30_encoding.md R89). -/
def unassignedOp (op : Byte) : Bool :=
  [0x09#8, 0x0A#8, 0x0B#8, 0x0C#8, 0x0D#8, 0x0E#8, 0x0F#8, 0x11#8, 0x17#8, 0x27#8, 0x28#8, 0x29#8, 0x2E#8,
    0x2F#8].contains op || decide (0x34 ≤ op.toNat)

namespace Machine

/-- Every one of the `n` byte addresses from `p` on, modulo 2^32, is backed (20_memory.md R53, R54). -/
abbrev backedBytes (m : Memory) (p : Word) (n : Nat) : Prop :=
  ∀ k < n, m.isBacked (p + BitVec.ofNat 32 k) = true

/-- `x` is the first of the `n` byte addresses from `p` on that is not backed (R55, R56). -/
abbrev firstUnbackedByte (m : Memory) (p : Word) (n : Nat) (x : Word) : Prop :=
  ∃ k < n, x = p + BitVec.ofNat 32 k ∧ m.isBacked x = false ∧ ∀ j < k, m.isBacked (p + BitVec.ofNat 32 j) = true

/-- Every byte address but the `n` from `p` on reads as before, and the map of backed addresses is the same. -/
def changesOnlyBytes (p : Word) (n : Nat) (s t : State) : Prop :=
  t.mem.backed = s.mem.backed ∧ ∀ x, (∀ k < n, x ≠ p + BitVec.ofNat 32 k) → t.mem.byteAt x = s.mem.byteAt x

/-- The word that stands at `p`, big-endian (R50, R55). -/
def wordAt (m : Memory) (p : Word) : Word :=
  m.byteAt p ++ m.byteAt (p + 1#32) ++ m.byteAt (p + 2#32) ++ m.byteAt (p + 3#32)

/-- Every register reads as before, and INT and the environment's line are as before. -/
def sameCore (s t : State) : Prop :=
  (∀ r, t.readReg r = s.readReg r) ∧ t.int = s.int ∧ t.line = s.line

/-- `x[a] <- v` and nothing else: every other register of the sixteen, INT, all of memory and the line are as before;
for `a` = R0 nothing is written (10_state.md R21, R28). -/
def changesOnlyReg (a : Reg) (v : Word) (s t : State) : Prop :=
  (∀ r, t.readReg r = if r = a then (if a = .r0 then 0#32 else v) else s.readReg r) ∧
    t.int = s.int ∧ t.mem = s.mem ∧ t.line = s.line

/-! ### The shapes of the instruction rules -/

/-- `i` at `s` does `x[a] <- v` and nothing else; in user mode with `a` = 12 it raises UserWriteSW instead (R38). -/
def writesReg (i : Instr) (a : Reg) (v : Word) (s : State) : Prop :=
  (a = .r12 ∧ s.superMode = false → exec i s = .fault (.userWriteSW (s.pc - 4#32))) ∧
    (¬(a = .r12 ∧ s.superMode = false) → ∃ t, exec i s = .next t ∧ changesOnlyReg a v s t)

/-- `i` at `s` does `x[a] <- f (MemRead(ea, n))` and nothing else, where `v` is that value: it raises UserWriteSW in
user mode with `a` = 12, and then MemUnmapped for the first address that is not backed (R55, R191). -/
def loadsReg (i : Instr) (a : Reg) (ea : Word) (n : Nat) (v : Word) (s : State) : Prop :=
  (a = .r12 ∧ s.superMode = false → exec i s = .fault (.userWriteSW (s.pc - 4#32))) ∧
    (¬(a = .r12 ∧ s.superMode = false) →
      (backedBytes s.mem ea n → ∃ t, exec i s = .next t ∧ changesOnlyReg a v s t) ∧
        ∀ x, firstUnbackedByte s.mem ea n x → exec i s = .fault (.memUnmapped x))

/-- `i` at `s` does `MemWrite(ea, 4, v)` and nothing else: no register changes, and the only bytes of memory that
change are the four at `ea`, which hold `v` big-endian; it raises MemUnmapped for the first address that is not backed
(R50, R56). -/
def storesWord (i : Instr) (ea v : Word) (s : State) : Prop :=
  (backedBytes s.mem ea 4 → ∃ t, exec i s = .next t ∧ sameCore s t ∧ wordAt t.mem ea = v ∧ changesOnlyBytes ea 4 s t) ∧
    ∀ x, firstUnbackedByte s.mem ea 4 x → exec i s = .fault (.memUnmapped x)

/-- `i` at `s` does `MemWrite(ea, 1, v)` and nothing else, as `storesWord` for one byte (R56, R57). -/
def storesByte (i : Instr) (ea : Word) (v : Byte) (s : State) : Prop :=
  (backedBytes s.mem ea 1 → ∃ t, exec i s = .next t ∧ sameCore s t ∧ t.mem.byteAt ea = v ∧ changesOnlyBytes ea 1 s t) ∧
    ∀ x, firstUnbackedByte s.mem ea 1 x → exec i s = .fault (.memUnmapped x)

/-- `i` at `s` goes on with `pc` = `target` and nothing else changed. -/
def jumpsTo (i : Instr) (target : Word) (s : State) : Prop :=
  ∃ t, exec i s = .next t ∧ changesOnlyReg .r15 target s t

/-- The entry sequence of a software or hardware interrupt: LR holds the old `pc`, INT is 1, `pc` is `target`, and no
other register, no bit of SW and no byte of memory changes (60_exceptions.md R195 to R198). -/
def entersInterrupt (target : Word) (s t : State) : Prop :=
  (∀ r, t.readReg r = if r = .r15 then target else if r = .r14 then s.pc else s.readReg r) ∧
    t.int = true ∧ t.mem = s.mem

/-! ### Steps and runs -/

/-- No hardware interrupt is taken at the boundary before the step: I = 0, or INT = 1, or the environment presents
nothing (R192, R202). -/
abbrev State.noEntry (s : State) : Prop :=
  s.flagI = false ∨ s.int = true ∨ s.line.head? = none ∨ s.line.head? = some none

/-- The step from `s` takes no hardware interrupt, and the word it fetches decodes to `i`. -/
def State.runs (s : State) (i : Instr) : Prop :=
  s.takenRequest = none ∧ ∃ ir, fetch s = .ok ir ∧ decodeWord ir = .ok i

/-- The outcome with its next state, if there is one, changed by `f`. -/
def mapNext (f : State → State) : Host.Outcome State Fault Refusal → Host.Outcome State Fault Refusal
  | .next t => .next (f t)
  | .fault x => .fault x
  | .refused x => .refused x

/-- The run is complete by the convention of 70_reset_and_hazards.md R233: `pc` is the address of the word
0x26FFFFFC, and no hardware interrupt can be taken, now or at any later boundary. -/
def State.completed (s : State) : Prop :=
  backedBytes s.mem s.pc 4 ∧ wordAt s.mem s.pc = Config.haltWord ∧
    (s.flagI = false ∨ s.int = true ∨ ∀ r ∈ s.line, r = none)

end Machine

end Sys2Proof
end

