-- ==== Sys2Proof/Certificates/Slice0/Obligations.lean ====
section
/-! DEFINITION. The statements for the provers. An instruction's statement says which words decode to it, its effect on
every register, on INT and on every byte of memory, and each fault of its rule. `exec` runs on the state in which `pc`
is already `A + 4`, so `s.pc - 4` is the address of the instruction (10_state.md R30). -/

open Sys2Proof Sys2Proof.Machine

/-! ### Load and store (40_load_store.md) -/

/-- LD and LDR (R111, R115). -/
def Obligations.WordLoads : Prop :=
  (∀ ir, opField ir = 0x00#8 → decodeWord ir = .ok (.ld (regA ir) (regB ir) (c16Field ir))) ∧
  (∀ ir, opField ir = 0x04#8 → decodeWord ir = .ok (.ldr (regA ir) (regB ir) (regC ir))) ∧
  (∀ a b c s, loadsReg (.ld a b c) a (s.readReg b + c) 4 (wordAt s.mem (s.readReg b + c)) s) ∧
  ∀ a b c s, loadsReg (.ldr a b c) a (s.readReg b + s.readReg c) 4 (wordAt s.mem (s.readReg b + s.readReg c)) s

/-- LDB and LBR (R113, R117): bits 31..8 of the destination become 0. -/
def Obligations.ByteLoads : Prop :=
  (∀ ir, opField ir = 0x02#8 → decodeWord ir = .ok (.ldb (regA ir) (regB ir) (c16Field ir))) ∧
  (∀ ir, opField ir = 0x06#8 → decodeWord ir = .ok (.lbr (regA ir) (regB ir) (regC ir))) ∧
  (∀ a b c s, loadsReg (.ldb a b c) a (s.readReg b + c) 1 (0#24 ++ s.mem.byteAt (s.readReg b + c)) s) ∧
  ∀ a b c s,
    loadsReg (.lbr a b c) a (s.readReg b + s.readReg c) 1 (0#24 ++ s.mem.byteAt (s.readReg b + s.readReg c)) s

/-- ST and STR (R112, R116). -/
def Obligations.WordStores : Prop :=
  (∀ ir, opField ir = 0x01#8 → decodeWord ir = .ok (.st (regA ir) (regB ir) (c16Field ir))) ∧
  (∀ ir, opField ir = 0x05#8 → decodeWord ir = .ok (.str (regA ir) (regB ir) (regC ir))) ∧
  (∀ a b c s, storesWord (.st a b c) (s.readReg b + c) (s.readReg a) s) ∧
  ∀ a b c s, storesWord (.str a b c) (s.readReg b + s.readReg c) (s.readReg a) s

/-- STB and SBR (R114, R118). -/
def Obligations.ByteStores : Prop :=
  (∀ ir, opField ir = 0x03#8 → decodeWord ir = .ok (.stb (regA ir) (regB ir) (c16Field ir))) ∧
  (∀ ir, opField ir = 0x07#8 → decodeWord ir = .ok (.sbr (regA ir) (regB ir) (regC ir))) ∧
  (∀ a b c s, storesByte (.stb a b c) (s.readReg b + c) ((s.readReg a).extractLsb' 0 8) s) ∧
  ∀ a b c s, storesByte (.sbr a b c) (s.readReg b + s.readReg c) ((s.readReg a).extractLsb' 0 8) s

/-- LDI (R119). -/
def Obligations.LoadConstant : Prop :=
  (∀ ir, opField ir = 0x08#8 → decodeWord ir = .ok (.ldi (regA ir) (c16Field ir))) ∧
  ∀ a c s, writesReg (.ldi a c) a c s

/-! ### Arithmetic and logic (41_arithmetic.md) -/

/-- CMP (R131): N is "less" and Z is "equal" of the signed values, every other bit of SW is kept; in either mode. -/
def Obligations.CompareSetsNAndZ : Prop :=
  (∀ ir, opField ir = 0x10#8 → decodeWord ir = .ok (.cmp (regA ir) (regB ir))) ∧
  ∀ a b s, ∃ t, exec (.cmp a b) s = .next t ∧
    t.flagN = decide ((s.readReg a).toInt < (s.readReg b).toInt) ∧
    t.flagZ = decide ((s.readReg a).toInt = (s.readReg b).toInt) ∧
    (∀ k, k ≠ Config.swN → k ≠ Config.swZ → t.sw.getLsbD k = s.sw.getLsbD k) ∧
    (∀ r, r ≠ .r12 → t.readReg r = s.readReg r) ∧ t.int = s.int ∧ t.mem = s.mem ∧ t.line = s.line

/-- MOV (R132). -/
def Obligations.MoveCopiesRegister : Prop :=
  (∀ ir, opField ir = 0x12#8 → decodeWord ir = .ok (.mov (regA ir) (regB ir))) ∧
  ∀ a b s, writesReg (.mov a b) a (s.readReg b) s

/-- ADD and SUB (R133, R134): the unsigned sum and difference modulo 2^32. -/
def Obligations.AddAndSubWrap : Prop :=
  (∀ ir, opField ir = 0x13#8 → decodeWord ir = .ok (.add (regA ir) (regB ir) (regC ir))) ∧
  (∀ ir, opField ir = 0x14#8 → decodeWord ir = .ok (.sub (regA ir) (regB ir) (regC ir))) ∧
  ∀ a b c s,
    writesReg (.add a b c) a (BitVec.ofNat 32 ((s.readReg b).toNat + (s.readReg c).toNat)) s ∧
    writesReg (.sub a b c) a (BitVec.ofInt 32 ((s.readReg b).toNat - (s.readReg c).toNat : Int)) s

/-- MUL (R135): the low 32 bits of the product, the same for the signed and the unsigned reading. -/
def Obligations.MultiplyKeepsLowWord : Prop :=
  (∀ ir, opField ir = 0x15#8 → decodeWord ir = .ok (.mul (regA ir) (regB ir) (regC ir))) ∧
  ∀ a b c s,
    writesReg (.mul a b c) a (BitVec.ofNat 32 ((s.readReg b).toNat * (s.readReg c).toNat)) s ∧
    writesReg (.mul a b c) a (BitVec.ofInt 32 ((s.readReg b).toInt * (s.readReg c).toInt)) s

/-- DIV (R136, R191): the signed quotient rounded toward zero, modulo 2^32; a zero divisor raises DivideByZero, after
the mode check. -/
def Obligations.DivideTruncates : Prop :=
  (∀ ir, opField ir = 0x16#8 → decodeWord ir = .ok (.div (regA ir) (regB ir) (regC ir))) ∧
  ∀ a b c s,
    (s.readReg c ≠ 0#32 →
      writesReg (.div a b c) a (BitVec.ofInt 32 ((s.readReg b).toInt.tdiv (s.readReg c).toInt)) s) ∧
    (s.readReg c = 0#32 →
      (a = .r12 ∧ s.superMode = false → exec (.div a b c) s = .fault (.userWriteSW (s.pc - 4#32))) ∧
      (¬(a = .r12 ∧ s.superMode = false) → exec (.div a b c) s = .fault (.divideByZero (s.pc - 4#32))))

/-- AND, OR, XOR (R137 to R139): bit by bit on all 32 bits. -/
def Obligations.LogicIsBitwise : Prop :=
  (∀ ir, opField ir = 0x18#8 → decodeWord ir = .ok (.and (regA ir) (regB ir) (regC ir))) ∧
  (∀ ir, opField ir = 0x19#8 → decodeWord ir = .ok (.or (regA ir) (regB ir) (regC ir))) ∧
  (∀ ir, opField ir = 0x1A#8 → decodeWord ir = .ok (.xor (regA ir) (regB ir) (regC ir))) ∧
  ∀ a b c s,
    (∃ v, (∀ k < 32, v.getLsbD k = ((s.readReg b).getLsbD k && (s.readReg c).getLsbD k)) ∧
      writesReg (.and a b c) a v s) ∧
    (∃ v, (∀ k < 32, v.getLsbD k = ((s.readReg b).getLsbD k || (s.readReg c).getLsbD k)) ∧
      writesReg (.or a b c) a v s) ∧
    ∃ v, (∀ k < 32, v.getLsbD k = ((s.readReg b).getLsbD k != (s.readReg c).getLsbD k)) ∧
      writesReg (.xor a b c) a v s

/-- ADDI (R140). -/
def Obligations.AddConstantWraps : Prop :=
  (∀ ir, opField ir = 0x1B#8 → decodeWord ir = .ok (.addi (regA ir) (regB ir) (c12Field ir))) ∧
  ∀ a b c s, writesReg (.addi a b c) a (BitVec.ofNat 32 ((s.readReg b).toNat + c.toNat)) s

/-- ROL and ROR (R141, R142, R146) for every count 0..31: bit `k` moves up, or down, by the count around the word. -/
def Obligations.RotatesMoveEveryBit : Prop :=
  (∀ ir, opField ir = 0x1C#8 → decodeWord ir = .ok (.rol (regA ir) (regB ir) (c5Field ir))) ∧
  (∀ ir, opField ir = 0x1D#8 → decodeWord ir = .ok (.ror (regA ir) (regB ir) (c5Field ir))) ∧
  ∀ a b n s, n < 32 →
    (∃ v, (∀ k < 32, v.getLsbD ((k + n) % 32) = (s.readReg b).getLsbD k) ∧ writesReg (.rol a b n) a v s) ∧
    ∃ v, (∀ k < 32, v.getLsbD k = (s.readReg b).getLsbD ((k + n) % 32)) ∧ writesReg (.ror a b n) a v s

/-- SHL and SHR (R143, R144, R146) for every count 0..31: multiplication by a power of two modulo 2^32, and the
unsigned quotient by it. -/
def Obligations.ShiftsAreLogical : Prop :=
  (∀ ir, opField ir = 0x1E#8 → decodeWord ir = .ok (.shl (regA ir) (regB ir) (c5Field ir))) ∧
  (∀ ir, opField ir = 0x1F#8 → decodeWord ir = .ok (.shr (regA ir) (regB ir) (c5Field ir))) ∧
  ∀ a b n s, n < 32 →
    writesReg (.shl a b n) a (BitVec.ofNat 32 ((s.readReg b).toNat * 2 ^ n)) s ∧
    writesReg (.shr a b n) a (BitVec.ofNat 32 ((s.readReg b).toNat / 2 ^ n)) s

/-! ### Jumps (42_jump.md) -/

/-- The six conditional jumps (R161 to R167): one row of R161's table each, for all four states of N and Z. -/
def Obligations.ConditionalJumpsFollowTable : Prop :=
  (∀ ir, opField ir = 0x20#8 → decodeWord ir = .ok (.jeq (c24Field ir))) ∧
  (∀ ir, opField ir = 0x21#8 → decodeWord ir = .ok (.jne (c24Field ir))) ∧
  (∀ ir, opField ir = 0x22#8 → decodeWord ir = .ok (.jlt (c24Field ir))) ∧
  (∀ ir, opField ir = 0x23#8 → decodeWord ir = .ok (.jgt (c24Field ir))) ∧
  (∀ ir, opField ir = 0x24#8 → decodeWord ir = .ok (.jle (c24Field ir))) ∧
  (∀ ir, opField ir = 0x25#8 → decodeWord ir = .ok (.jge (c24Field ir))) ∧
  ∀ c s,
    jumpsTo (.jeq c) (if s.flagZ = true then s.pc + c else s.pc) s ∧
    jumpsTo (.jne c) (if s.flagZ = false then s.pc + c else s.pc) s ∧
    jumpsTo (.jlt c) (if s.flagN = true ∧ s.flagZ = false then s.pc + c else s.pc) s ∧
    jumpsTo (.jgt c) (if s.flagN = false ∧ s.flagZ = false then s.pc + c else s.pc) s ∧
    jumpsTo (.jle c) (if s.flagN = true ∨ s.flagZ = true then s.pc + c else s.pc) s ∧
    jumpsTo (.jge c) (if s.flagN = false ∨ s.flagZ = true then s.pc + c else s.pc) s

/-- JMP (R168). -/
def Obligations.JumpIsRelative : Prop :=
  (∀ ir, opField ir = 0x26#8 → decodeWord ir = .ok (.jmp (c24Field ir))) ∧
  ∀ c s, jumpsTo (.jmp c) (s.pc + c) s

/-- CALL (R170). -/
def Obligations.CallLinksAndJumps : Prop :=
  (∀ ir, opField ir = 0x2B#8 → decodeWord ir = .ok (.call (c24Field ir))) ∧
  ∀ c s, ∃ t, exec (.call c) s = .next t ∧
    (∀ r, t.readReg r = if r = .r15 then s.pc + c else if r = .r14 then s.pc else s.readReg r) ∧
    t.int = s.int ∧ t.mem = s.mem ∧ t.line = s.line

/-- RET (R171). -/
def Obligations.ReturnJumpsToLink : Prop :=
  (∀ ir, opField ir = 0x2C#8 → decodeWord ir = .ok .ret) ∧
  ∀ s, jumpsTo .ret (s.readReg .r14) s

/-- SWI (R169, R195, R212): the entry if I = T = 1 and INT = 0, nothing otherwise. -/
def Obligations.SoftwareInterruptEntry : Prop :=
  (∀ ir, opField ir = 0x2A#8 → decodeWord ir = .ok (.swi (c24Field ir))) ∧
  ∀ c s,
    (s.flagI = true ∧ s.flagT = true ∧ s.int = false →
      ∃ t, exec (.swi c) s = .next t ∧ entersInterrupt c s t ∧ t.line = s.line) ∧
    (s.flagI = false ∨ s.flagT = false ∨ s.int = true → exec (.swi c) s = .next s)

/-- IRET (R172): in either mode and with INT at either value; a hardware request waiting at the boundary after it is
taken there if I = 1. -/
def Obligations.ReturnFromInterruptClearsInt : Prop :=
  (∀ ir, opField ir = 0x2D#8 → decodeWord ir = .ok .iret) ∧
  ∀ s, ∃ t, exec .iret s = .next t ∧
    (∀ r, t.readReg r = if r = .r15 then s.readReg .r14 else s.readReg r) ∧
    t.int = false ∧ t.mem = s.mem ∧ t.line = s.line ∧
    ∀ addr, s.flagI = true → s.line.head? = some (some addr) → ∃ u, step t = .next u ∧ entersInterrupt addr t u

/-! ### Stack (43_stack.md) -/

/-- PUSH (R181): SP is decremented first, so `PUSH R13` stores the decremented SP. -/
def Obligations.PushWordStoresBelow : Prop :=
  (∀ ir, opField ir = 0x30#8 → decodeWord ir = .ok (.push (regA ir))) ∧
  ∀ a s sp, sp = s.readReg .r13 - 4#32 →
    (backedBytes s.mem sp 4 → ∃ t, exec (.push a) s = .next t ∧
      (∀ r, t.readReg r = if r = .r13 then sp else s.readReg r) ∧ t.int = s.int ∧ t.line = s.line ∧
      wordAt t.mem sp = (if a = .r13 then sp else s.readReg a) ∧ changesOnlyBytes sp 4 s t) ∧
    ∀ x, firstUnbackedByte s.mem sp 4 x → exec (.push a) s = .fault (.memUnmapped x)

/-- PUSHB (R183). -/
def Obligations.PushByteStoresBelow : Prop :=
  (∀ ir, opField ir = 0x32#8 → decodeWord ir = .ok (.pushb (regA ir))) ∧
  ∀ a s sp, sp = s.readReg .r13 - 1#32 →
    (backedBytes s.mem sp 1 → ∃ t, exec (.pushb a) s = .next t ∧
      (∀ r, t.readReg r = if r = .r13 then sp else s.readReg r) ∧ t.int = s.int ∧ t.line = s.line ∧
      t.mem.byteAt sp = (if a = .r13 then sp else s.readReg a).extractLsb' 0 8 ∧ changesOnlyBytes sp 1 s t) ∧
    ∀ x, firstUnbackedByte s.mem sp 1 x → exec (.pushb a) s = .fault (.memUnmapped x)

/-- POP (R182): Ra is loaded first, so `POP R13` ends with the loaded word plus 4. -/
def Obligations.PopWordLoadsAndMovesSp : Prop :=
  (∀ ir, opField ir = 0x31#8 → decodeWord ir = .ok (.pop (regA ir))) ∧
  ∀ a s v, v = wordAt s.mem (s.readReg .r13) →
    (a = .r12 ∧ s.superMode = false → exec (.pop a) s = .fault (.userWriteSW (s.pc - 4#32))) ∧
    (¬(a = .r12 ∧ s.superMode = false) →
      (backedBytes s.mem (s.readReg .r13) 4 → ∃ t, exec (.pop a) s = .next t ∧
        (∀ r, t.readReg r =
          if r = .r13 then (if a = .r13 then v else s.readReg .r13) + 4#32
          else if r = a then (if a = .r0 then 0#32 else v) else s.readReg r) ∧
        t.int = s.int ∧ t.mem = s.mem ∧ t.line = s.line) ∧
      ∀ x, firstUnbackedByte s.mem (s.readReg .r13) 4 x → exec (.pop a) s = .fault (.memUnmapped x))

/-- POPB (R184). -/
def Obligations.PopByteLoadsAndMovesSp : Prop :=
  (∀ ir, opField ir = 0x33#8 → decodeWord ir = .ok (.popb (regA ir))) ∧
  ∀ a s v, v = (0#24 ++ s.mem.byteAt (s.readReg .r13) : Word) →
    (a = .r12 ∧ s.superMode = false → exec (.popb a) s = .fault (.userWriteSW (s.pc - 4#32))) ∧
    (¬(a = .r12 ∧ s.superMode = false) →
      (backedBytes s.mem (s.readReg .r13) 1 → ∃ t, exec (.popb a) s = .next t ∧
        (∀ r, t.readReg r =
          if r = .r13 then (if a = .r13 then v else s.readReg .r13) + 1#32
          else if r = a then (if a = .r0 then 0#32 else v) else s.readReg r) ∧
        t.int = s.int ∧ t.mem = s.mem ∧ t.line = s.line) ∧
      ∀ x, firstUnbackedByte s.mem (s.readReg .r13) 1 x → exec (.popb a) s = .fault (.memUnmapped x))

/-! ### Encoding (30_encoding.md) -/

/-- The fields of a word stand where R83 to R86 put them, and the constants are the signed readings of their bits. -/
def Obligations.FieldsStandInTheirBits : Prop :=
  ∀ ir,
    (opField ir).toNat = ir.toNat / 2 ^ 24 ∧
    (regA ir).field.toNat = ir.toNat / 2 ^ 20 % 16 ∧
    (regB ir).field.toNat = ir.toNat / 2 ^ 16 % 16 ∧
    (regC ir).field.toNat = ir.toNat / 2 ^ 12 % 16 ∧
    c5Field ir = ir.toNat % 32 ∧
    (c12Field ir).toInt = (ir.toNat % 2 ^ 12 : Int).bmod (2 ^ 12) ∧
    (c16Field ir).toInt = (ir.toNat % 2 ^ 16 : Int).bmod (2 ^ 16) ∧
    (c24Field ir).toInt = (ir.toNat % 2 ^ 24 : Int).bmod (2 ^ 24)

/-- The decoder gives back every well-formed instruction from its canonical word (R94). -/
def Obligations.DecodeInvertsEncode : Prop :=
  ∀ i : Instr, i.wf = true → decodeWord (encode i) = .ok i ∧ decode (wordBytes (encode i)) = .ok (i, [])

/-- Every word that decodes gives a well-formed instruction: its constants are in the ranges of R86. -/
def Obligations.DecodedIsWellFormed : Prop :=
  ∀ ir i, decodeWord ir = .ok i → i.wf = true

/-- Two words decode to one instruction exactly if they agree outside the bits R90 lists for it: the unused bits are
ignored, and no other bit is. The canonical word has zeros there (R90, R94). -/
def Obligations.OnlyUnusedBitsAreIgnored : Prop :=
  ∀ ir i, decodeWord ir = .ok i →
    encode i = ir &&& ~~~i.unusedBits ∧
    ∀ ir', decodeWord ir' = .ok i ↔ ir' &&& ~~~i.unusedBits = ir &&& ~~~i.unusedBits

/-- R89: a word spells no instruction exactly if its OP is one of the 218 unassigned values, and a step that fetches
one raises IllegalInstruction with the address and the word. -/
def Obligations.UnassignedOpcodesStop : Prop :=
  ((List.range 256).filter fun n => unassignedOp (BitVec.ofNat 8 n)).length = 218 ∧
  (∀ ir, unassignedOp (opField ir) = false ↔ ∃ i, decodeWord ir = .ok i) ∧
  ∀ s, s.noEntry → backedBytes s.mem s.pc 4 → unassignedOp (opField (wordAt s.mem s.pc)) = true →
    step s = .fault (.illegalInstruction s.pc (wordAt s.mem s.pc))

/-- One word of each kind of encoding, written out from R83 to R88, decodes to its instruction: words of
95_test_vectors.md (E1, L1, P2) and of the examples of R115 and R140. -/
def Obligations.WordsOfEveryFamilyDecode : Prop :=
  decodeWord 0x0012FFFC#32 = .ok (.ld .r1 .r2 (-4#32)) ∧
  decodeWord 0x04867000#32 = .ok (.ldr .r8 .r6 .r7) ∧
  decodeWord 0x1B110FFF#32 = .ok (.addi .r1 .r1 (-1#32)) ∧
  decodeWord 0x1C120008#32 = .ok (.rol .r1 .r2 8) ∧
  decodeWord 0x24FFFFF0#32 = .ok (.jle (-16#32)) ∧
  decodeWord 0x2C000000#32 = .ok .ret ∧
  decodeWord 0x30E00000#32 = .ok (.push .r14)

/-! ### The step (00_scope.md R9) and interrupts (60_exceptions.md) -/

/-- R9: a step that takes no interrupt fetches the big-endian word at `pc`, advances `pc` by 4, decodes and executes;
it faults if one of the four bytes is not backed. The line's entry for this boundary is assumption 5. -/
def Obligations.StepRunsDecodedInstruction : Prop :=
  ∀ s, s.noEntry →
    (∀ x, firstUnbackedByte s.mem s.pc 4 x → step s = .fault (.memUnmapped x)) ∧
    (backedBytes s.mem s.pc 4 → ∀ i, decodeWord (wordAt s.mem s.pc) = .ok i →
      step s = exec i ((s.setLine s.line.tail).setPc (s.pc + 4#32)))

/-- R196: with I = 1 and INT = 0 a request at the boundary is taken: LR holds the address of the next instruction, INT
is 1, `pc` is INT_ADDR and nothing else changes (R192, R202). That the request's entry is gone from the line is the
model's choice (assumption 5). -/
def Obligations.HardwareInterruptEntry : Prop :=
  ∀ s addr, s.flagI = true → s.int = false → s.line.head? = some (some addr) →
    ∃ t, step s = .next t ∧ entersInterrupt addr s t ∧ t.line = s.line.tail

/-- R202: a request that is not taken is ignored at this boundary: the step is the one without it. -/
def Obligations.RefusedRequestIsIgnored : Prop :=
  ∀ s r rest, s.line = r :: rest → s.flagI = false ∨ s.int = true →
    step s = step (s.setLine (none :: rest))

/-- R193, R212: while INT = 1 nothing is taken, a software interrupt has no effect, and only IRET ends it. That the
boundary takes one entry off the line is the model's choice (assumption 5). -/
def Obligations.InterruptsDoNotNest : Prop :=
  ∀ s t, s.int = true → step s = .next t →
    (∃ i, s.runs i ∧ (t.int = false ↔ i = .iret)) ∧
    ∀ c, s.runs (.swi c) → t = (s.setLine s.line.tail).setPc (s.pc + 4#32)

/-- R39: only interrupt entry and IRET write INT. -/
def Obligations.IntWrittenOnlyByEntryAndReturn : Prop :=
  ∀ s t, step s = .next t → t.int ≠ s.int →
    (t.int = true ∧ s.flagI = true ∧
      ((∃ addr, s.line.head? = some (some addr) ∧ t.pc = addr) ∨ ∃ c, s.runs (.swi c) ∧ s.flagT = true ∧ t.pc = c)) ∨
    (t.int = false ∧ s.runs .iret)

/-- A RET after a CALL, and an IRET after a hardware or software interrupt entry, that find LR as it was left go on at
the first instruction not yet executed; the IRET leaves INT = 0 and SW alone (R30, R173, R194, R199). -/
def Obligations.ReturnsResumeWhereLeft : Prop :=
  (∀ c s t u, exec (.call c) s = .next t → u.readReg .r14 = t.readReg .r14 →
    ∃ v, exec .ret u = .next v ∧ v.pc = s.pc) ∧
  (∀ s t u addr, s.takenRequest = some addr → step s = .next t → u.readReg .r14 = t.readReg .r14 →
    ∃ v, exec .iret u = .next v ∧ v.pc = s.pc ∧ v.int = false ∧ v.sw = u.sw) ∧
  ∀ c s t u, s.swiEnabled = true → exec (.swi c) s = .next t → u.readReg .r14 = t.readReg .r14 →
    ∃ v, exec .iret u = .next v ∧ v.pc = s.pc ∧ v.int = false ∧ v.sw = u.sw

/-! ### The status word and privilege (10_state.md R33 to R41, 60_exceptions.md R203 to R205) -/

/-- R38, R204: in user mode an instruction with destination R12 raises UserWriteSW, and no other instruction ever
does. -/
def Obligations.UserModeMayNotSetSw : Prop :=
  (∀ (i : Instr) s, s.superMode = false → i.destination = some .r12 →
    exec i s = .fault (.userWriteSW (s.pc - 4#32))) ∧
  ∀ (i : Instr) s p, exec i s = .fault (.userWriteSW p) → s.superMode = false ∧ i.destination = some .r12

/-- R205: the mode changes only by a write of R12 in super mode, so super mode can drop to user mode and user mode
cannot return, whatever instruction runs or interrupt is taken. -/
def Obligations.UserModeIsOneWay : Prop :=
  (∀ s t, step s = .next t → t.superMode ≠ s.superMode →
    s.superMode = true ∧ ∃ i, s.runs i ∧ i.destination = some .r12) ∧
  (∀ s t, step s = .next t → s.superMode = false → t.superMode = false) ∧
  ∀ s c, s.superMode = true → c.getLsbD Config.swM = false →
    ∃ t, exec (.ldi .r12 c) s = .next t ∧ t.superMode = false

/-- R34, R35, R33: a bit of SW changes only by a write of R12 in super mode, and N and Z also by CMP. -/
def Obligations.StatusWordWriters : Prop :=
  ∀ s t k, step s = .next t → t.sw.getLsbD k ≠ s.sw.getLsbD k →
    ∃ i, s.runs i ∧
      ((i.destination = some .r12 ∧ s.superMode = true) ∨
        ((∃ a b, i = .cmp a b) ∧ (k = Config.swN ∨ k = Config.swZ)))

/-! ### Memory (20_memory.md) -/

/-- The invariant of memory: every step keeps its canonical form, and the map of backed addresses. -/
def Obligations.StepKeepsMemoryCanonical : Prop :=
  ∀ s t, s.mem.wf → step s = .next t → t.mem.wf ∧ t.mem.backed = s.mem.backed

/-- Memory after reset is in canonical form. -/
def Obligations.ResetMemoryCanonical : Prop := State.reset.mem.wf

/-- R52, R60: only the six storing instructions change memory. -/
def Obligations.OnlyStoresChangeMemory : Prop :=
  ∀ s t, step s = .next t → t.mem ≠ s.mem → ∃ i, s.runs i ∧ i.stores = true

/-- R70: after ST, byte loads see the word's bytes from the most significant on; after STB, a word load sees the byte
in the place of its address. -/
def Obligations.MixedWidthAccess : Prop :=
  (∀ a b c d s t k, b ≠ .r15 → d ≠ .r0 → d ≠ .r12 → k < 4 → exec (.st a b c) s = .next t →
    ∃ u, exec (.ldb d b (c + BitVec.ofNat 32 k)) t.advance = .next u ∧
      u.readReg d = ((s.readReg a) >>> (8 * (3 - k))) &&& 0xFF#32) ∧
  ∀ a b c d s t, b ≠ .r15 → d ≠ .r0 → d ≠ .r12 → backedBytes s.mem (s.readReg b + c) 4 →
    exec (.stb a b c) s = .next t →
    ∃ u, exec (.ld d b c) t.advance = .next u ∧
      u.readReg d = (s.readReg a).extractLsb' 0 8 ++ (wordAt s.mem (s.readReg b + c)).extractLsb' 0 24

/-- R67: a word stored where the next instruction is fetched is the instruction fetched. The line is assumption 5. -/
def Obligations.StoreSeenByNextFetch : Prop :=
  ∀ a b c s t i, exec (.st a b c) s = .next t → s.readReg b + c = s.pc → s.noEntry →
    decodeWord (s.readReg a) = .ok i → step t = exec i ((t.setLine t.line.tail).setPc (s.pc + 4#32))

/-- A push and the pop after it leave SP where it was and copy the register (R180 to R182). -/
def Obligations.PopUndoesPush : Prop :=
  ∀ a d s t, a ≠ .r13 → d ≠ .r0 → d ≠ .r12 → d ≠ .r13 → exec (.push a) s = .next t →
    ∃ u, exec (.pop d) t.advance = .next u ∧ u.readReg d = s.readReg a ∧ u.readReg .r13 = s.readReg .r13 ∧
      u.mem = t.mem

/-! ### Whole-machine rules -/

/-- R191: every fault of a step has its cause in the state before the step. -/
def Obligations.FaultsHaveTheirCause : Prop :=
  ∀ s f, step s = .fault f →
    (∃ x, f = .memUnmapped x ∧ s.mem.isBacked x = false) ∨
    (f = .illegalInstruction s.pc (wordAt s.mem s.pc) ∧ unassignedOp (opField (wordAt s.mem s.pc)) = true) ∨
    (f = .userWriteSW s.pc ∧ s.superMode = false ∧ ∃ i, s.runs i ∧ i.destination = some .r12) ∨
    (f = .divideByZero s.pc ∧ ∃ a b c, s.runs (.div a b c) ∧ s.advance.readReg c = 0#32)

/-- No step is refused. -/
def Obligations.NothingIsRefused : Prop := ∀ s r, step s ≠ .refused r

/-- R31: an instruction that is no jump and does not name R15 as its destination leaves `pc` at `A + 4`. -/
def Obligations.PcStaysAdvanced : Prop :=
  ∀ (i : Instr) s t, exec i s = .next t → i.jumps = false → i.destination ≠ some .r15 → t.pc = s.pc

/-- No instruction reads or changes what the environment will present: it does the same on any line. -/
def Obligations.InstructionsIgnoreTheLine : Prop :=
  ∀ (i : Instr) s l, exec i (s.setLine l) = mapNext (fun t => t.setLine l) (exec i s)

/-- DIV, MUL and SUB give the remainder, with the sign of the dividend (R136). -/
def Obligations.RemainderByDivMulSub : Prop :=
  ∀ s : State, s.readReg .r2 ≠ 0#32 →
    ∃ t u v, exec (.div .r3 .r1 .r2) s = .next t ∧ exec (.mul .r4 .r3 .r2) t.advance = .next u ∧
      exec (.sub .r5 .r1 .r4) u.advance = .next v ∧
      (v.readReg .r5).toInt = (s.readReg .r1).toInt.tmod (s.readReg .r2).toInt

/-- ROR undoes ROL, and ROR by `n` is ROL by `32 - n` (R141, R142). -/
def Obligations.RotatesUndoEachOther : Prop :=
  (∀ a b n s, n < 32 → a ≠ .r0 → a ≠ .r12 → a ≠ .r15 →
    ∃ t u, exec (.rol a b n) s = .next t ∧ exec (.ror a a n) t.advance = .next u ∧ u.readReg a = s.readReg b) ∧
  ∀ a b n s, 1 ≤ n → n ≤ 31 → exec (.ror a b n) s = exec (.rol a b (32 - n)) s

/-- R233: a completed run goes on for ever at the same place, and nothing but the environment's line moves
(assumption 5). -/
def Obligations.CompletedRunStays : Prop :=
  ∀ s : State, s.completed → step s = .next (s.setLine s.line.tail) ∧ (s.setLine s.line.tail).completed

/-- R92: the all-zero word reads the word at address 0, discards it and advances `pc`. The line is assumption 5. -/
def Obligations.ZeroWordOnlyAdvances : Prop :=
  ∀ s, s.noEntry → backedBytes s.mem s.pc 4 → wordAt s.mem s.pc = 0#32 →
    (backedBytes s.mem 0#32 4 → step s = .next ((s.setLine s.line.tail).setPc (s.pc + 4#32))) ∧
    ∀ x, firstUnbackedByte s.mem 0#32 4 x → step s = .fault (.memUnmapped x)

/-! ### Reset and the host's placing of a word -/

/-- The reset state (R44, R221), with the values the model chose for what the spec leaves open: registers 0
(assumption 1), memory 0 (assumption 2), 64 KiB backed (assumption 3), `RESET_PC` and `RESET_SW` as suggested
(assumption 4), nothing presented (assumption 5). -/
def Obligations.ResetStateValues : Prop :=
  State.reset.superMode = true ∧ State.reset.flagI = false ∧ State.reset.sw = 0x00000001#32 ∧
  State.reset.pc = 0x00000000#32 ∧ State.reset.int = false ∧ State.reset.line = [] ∧
  (∀ r, r ≠ .r12 → State.reset.readReg r = 0#32) ∧
  ∀ x : Word, State.reset.mem.byteAt x = 0#8 ∧ (State.reset.mem.isBacked x = true ↔ x.toNat < 0x10000)

/-- R222 with the reset values of assumption 4 and the line of assumption 5: whatever memory holds and the environment
presents, the first step after reset runs the instruction at address 0. -/
def Obligations.FirstStepRunsResetPc : Prop :=
  ∀ m l i, backedBytes m 0#32 4 → decodeWord (wordAt m 0#32) = .ok i →
    step ((State.reset.setMem m).setLine l) = exec i (((State.reset.setMem m).setLine l.tail).setPc 4#32)

/-- The model's own `withFetchWord` (assumption 6, the line assumption 5): the next step runs the instruction whose word
was placed, with every register, INT, every other byte of memory and what is presented later as they were. -/
def Obligations.PlacedWordRunsNext : Prop :=
  ∀ (s : State) w i, w < 2 ^ 32 → decodeWord (BitVec.ofNat 32 w) = .ok i →
    let p := s.withFetchWord 32 w
    step p = exec i ((p.setLine p.line.tail).setPc (s.pc + 4#32)) ∧
      (∀ r, p.readReg r = s.readReg r) ∧ p.int = s.int ∧ p.line.tail = s.line.tail ∧ (s.mem.wf → p.mem.wf) ∧
      ∀ x, (∀ k < 4, x ≠ s.pc + BitVec.ofNat 32 k) →
        p.mem.byteAt x = s.mem.byteAt x ∧ p.mem.isBacked x = s.mem.isBacked x
end

