-- ==== Sys2Proof/Laws/Decode.lean ====
section
/-! SUPPORT. The fields of a word put together by the three formats, and register numbers and constants that survive
their field (30_encoding.md R83 to R86, R94). -/

namespace Sys2Proof

/-! ### Registers -/

@[simp] theorem Reg.ofField_field (r : Reg) : Reg.ofField r.field = r := by
  cases r <;> rfl

@[simp] theorem Reg.field_ofField (f : BitVec 4) : (Reg.ofField f).field = f := by
  revert f
  decide

/-! ### The fields of format A -/

section FormatA

variable (op : Byte) (a b c : BitVec 4) (cx : BitVec 12)

theorem opField_formatA : opField (formatA op a b c cx) = op := by
  ext i hi
  simp only [opField, formatA, BitVec.getElem_extractLsb', BitVec.getLsbD_append]
  grind

theorem aField_formatA : aField (formatA op a b c cx) = a := by
  ext i hi
  simp only [aField, formatA, BitVec.getElem_extractLsb', BitVec.getLsbD_append]
  grind

theorem bField_formatA : bField (formatA op a b c cx) = b := by
  ext i hi
  simp only [bField, formatA, BitVec.getElem_extractLsb', BitVec.getLsbD_append]
  grind

theorem cField_formatA : cField (formatA op a b c cx) = c := by
  ext i hi
  simp only [cField, formatA, BitVec.getElem_extractLsb', BitVec.getLsbD_append]
  grind

theorem constant_formatA : (formatA op a b c cx).extractLsb' 0 12 = cx := by
  ext i hi
  simp only [formatA, BitVec.getElem_extractLsb', BitVec.getLsbD_append]
  grind

end FormatA

/-! ### The fields of format L -/

section FormatL

variable (op : Byte) (a b : BitVec 4) (cx : BitVec 16)

theorem opField_formatL : opField (formatL op a b cx) = op := by
  ext i hi
  simp only [opField, formatL, BitVec.getElem_extractLsb', BitVec.getLsbD_append]
  grind

theorem aField_formatL : aField (formatL op a b cx) = a := by
  ext i hi
  simp only [aField, formatL, BitVec.getElem_extractLsb', BitVec.getLsbD_append]
  grind

theorem bField_formatL : bField (formatL op a b cx) = b := by
  ext i hi
  simp only [bField, formatL, BitVec.getElem_extractLsb', BitVec.getLsbD_append]
  grind

theorem constant_formatL : (formatL op a b cx).extractLsb' 0 16 = cx := by
  ext i hi
  simp only [formatL, BitVec.getElem_extractLsb', BitVec.getLsbD_append]
  grind

end FormatL

/-! ### The fields of format J -/

theorem opField_formatJ (op : Byte) (cx : BitVec 24) : opField (formatJ op cx) = op := by
  ext i hi
  simp only [opField, formatJ, BitVec.getElem_extractLsb', BitVec.getLsbD_append]
  grind

theorem constant_formatJ (op : Byte) (cx : BitVec 24) : (formatJ op cx).extractLsb' 0 24 = cx := by
  ext i hi
  simp only [formatJ, BitVec.getElem_extractLsb', BitVec.getLsbD_append]
  grind

/-! ### Bytes of a word -/

/-- The four bytes of a word, put together big-endian, are the word (20_memory.md R50). -/
theorem bigEndian_bytes (w : Word) :
    bigEndian (w.extractLsb' 24 8) (w.extractLsb' 16 8) (w.extractLsb' 8 8) (w.extractLsb' 0 8) = w := by
  ext i hi
  unfold bigEndian
  grind

/-- A list of four bytes made from a word decodes as the word (R59, R80). -/
theorem decode_wordBytes (w : Word) :
    decode (wordBytes w) = (decodeWord w).map fun i => (i, []) := by
  simp only [wordBytes, decode, bigEndian_bytes]
  cases decodeWord w <;> rfl

end Sys2Proof
end

