-- ==== Sys2Proof/Laws/State.lean ====
section
/-! SUPPORT. One lemma per field per update of State, each true by unfolding, so that no proof unfolds an update. -/

namespace Sys2Proof.Machine

variable (s : State)

@[simp] theorem State.setRegs_regs (x : Registers) : (s.setRegs x).regs = x := rfl
@[simp] theorem State.setRegs_sw (x : Registers) : (s.setRegs x).sw = s.sw := rfl
@[simp] theorem State.setRegs_pc (x : Registers) : (s.setRegs x).pc = s.pc := rfl
@[simp] theorem State.setRegs_int (x : Registers) : (s.setRegs x).int = s.int := rfl
@[simp] theorem State.setRegs_mem (x : Registers) : (s.setRegs x).mem = s.mem := rfl
@[simp] theorem State.setRegs_line (x : Registers) : (s.setRegs x).line = s.line := rfl

@[simp] theorem State.setSw_regs (x : Word) : (s.setSw x).regs = s.regs := rfl
@[simp] theorem State.setSw_sw (x : Word) : (s.setSw x).sw = x := rfl
@[simp] theorem State.setSw_pc (x : Word) : (s.setSw x).pc = s.pc := rfl
@[simp] theorem State.setSw_int (x : Word) : (s.setSw x).int = s.int := rfl
@[simp] theorem State.setSw_mem (x : Word) : (s.setSw x).mem = s.mem := rfl
@[simp] theorem State.setSw_line (x : Word) : (s.setSw x).line = s.line := rfl

@[simp] theorem State.setPc_regs (x : Word) : (s.setPc x).regs = s.regs := rfl
@[simp] theorem State.setPc_sw (x : Word) : (s.setPc x).sw = s.sw := rfl
@[simp] theorem State.setPc_pc (x : Word) : (s.setPc x).pc = x := rfl
@[simp] theorem State.setPc_int (x : Word) : (s.setPc x).int = s.int := rfl
@[simp] theorem State.setPc_mem (x : Word) : (s.setPc x).mem = s.mem := rfl
@[simp] theorem State.setPc_line (x : Word) : (s.setPc x).line = s.line := rfl

@[simp] theorem State.setInt_regs (x : Bool) : (s.setInt x).regs = s.regs := rfl
@[simp] theorem State.setInt_sw (x : Bool) : (s.setInt x).sw = s.sw := rfl
@[simp] theorem State.setInt_pc (x : Bool) : (s.setInt x).pc = s.pc := rfl
@[simp] theorem State.setInt_int (x : Bool) : (s.setInt x).int = x := rfl
@[simp] theorem State.setInt_mem (x : Bool) : (s.setInt x).mem = s.mem := rfl
@[simp] theorem State.setInt_line (x : Bool) : (s.setInt x).line = s.line := rfl

@[simp] theorem State.setMem_regs (x : Memory) : (s.setMem x).regs = s.regs := rfl
@[simp] theorem State.setMem_sw (x : Memory) : (s.setMem x).sw = s.sw := rfl
@[simp] theorem State.setMem_pc (x : Memory) : (s.setMem x).pc = s.pc := rfl
@[simp] theorem State.setMem_int (x : Memory) : (s.setMem x).int = s.int := rfl
@[simp] theorem State.setMem_mem (x : Memory) : (s.setMem x).mem = x := rfl
@[simp] theorem State.setMem_line (x : Memory) : (s.setMem x).line = s.line := rfl

@[simp] theorem State.setLine_regs (x : List (Option Word)) : (s.setLine x).regs = s.regs := rfl
@[simp] theorem State.setLine_sw (x : List (Option Word)) : (s.setLine x).sw = s.sw := rfl
@[simp] theorem State.setLine_pc (x : List (Option Word)) : (s.setLine x).pc = s.pc := rfl
@[simp] theorem State.setLine_int (x : List (Option Word)) : (s.setLine x).int = s.int := rfl
@[simp] theorem State.setLine_mem (x : List (Option Word)) : (s.setLine x).mem = s.mem := rfl
@[simp] theorem State.setLine_line (x : List (Option Word)) : (s.setLine x).line = x := rfl

@[simp] theorem Memory.setByte_backed (m : Memory) (a : Word) (v : Byte) : (m.setByte a v).backed = m.backed := rfl

@[simp] theorem Memory.setByte_cells (m : Memory) (a : Word) (v : Byte) :
    (m.setByte a v).cells = writeCell a.toNat v m.cells := rfl

@[simp] theorem Memory.putWord_backed (m : Memory) (p v : Word) : (m.putWord p v).backed = m.backed := rfl

@[simp] theorem State.passBoundary_regs : s.passBoundary.regs = s.regs := rfl
@[simp] theorem State.passBoundary_sw : s.passBoundary.sw = s.sw := rfl
@[simp] theorem State.passBoundary_pc : s.passBoundary.pc = s.pc := rfl
@[simp] theorem State.passBoundary_int : s.passBoundary.int = s.int := rfl
@[simp] theorem State.passBoundary_mem : s.passBoundary.mem = s.mem := rfl
@[simp] theorem State.passBoundary_line : s.passBoundary.line = s.line.tail := rfl

@[simp] theorem State.advance_regs : s.advance.regs = s.regs := rfl
@[simp] theorem State.advance_sw : s.advance.sw = s.sw := rfl
@[simp] theorem State.advance_pc : s.advance.pc = s.pc + 4#32 := rfl
@[simp] theorem State.advance_int : s.advance.int = s.int := rfl
@[simp] theorem State.advance_mem : s.advance.mem = s.mem := rfl
@[simp] theorem State.advance_line : s.advance.line = s.line := rfl

/-- Two states with the same fields are the same state. -/
theorem State.ext_fields {s t : State} (hr : s.regs = t.regs) (hs : s.sw = t.sw) (hp : s.pc = t.pc)
    (hi : s.int = t.int) (hm : s.mem = t.mem) (hl : s.line = t.line) : s = t := by
  cases s
  cases t
  simp_all

end Sys2Proof.Machine
end

