-- ==== Sys2Proof/Laws/Memory.lean ====
section
/-! SUPPORT. Reads, writes and the canonical form of memory: a byte reads as it was written, every other byte is left
alone, and every operation keeps `Memory.wf`. -/

namespace Sys2Proof.Machine

/-! ### Cells -/

theorem lookupCell_removeCell (cells : List Host.Cell) (n k : Nat) :
    lookupCell (removeCell n cells) k = if k = n then Platform.unlistedByte else lookupCell cells k := by
  induction cells with
  | nil => simp [removeCell, lookupCell]
  | cons c rest ih =>
    obtain ⟨j, v⟩ := c
    by_cases hj : j = n
    · have h : removeCell n ((j, v) :: rest) = removeCell n rest := by simp [removeCell, hj]
      rw [h, ih]
      by_cases hk : k = n
      · simp [hk]
      · have hjk : j ≠ k := fun e => hk (e ▸ hj)
        simp [hk, lookupCell, hjk]
    · have h : removeCell n ((j, v) :: rest) = (j, v) :: removeCell n rest := by simp [removeCell, hj]
      rw [h]
      by_cases hjk : j = k
      · have hkn : k ≠ n := hjk ▸ hj
        simp [lookupCell, hjk, hkn]
      · simp [lookupCell, hjk, ih]

theorem lookupCell_insertCell (cells : List Host.Cell) (n k : Nat) (v : Byte) (h : ∀ c ∈ cells, c.1 ≠ n) :
    lookupCell (insertCell n v cells) k = if k = n then v else lookupCell cells k := by
  induction cells with
  | nil => simp [insertCell, lookupCell, eq_comm]
  | cons c rest ih =>
    obtain ⟨j, w⟩ := c
    have hj : j ≠ n := h (j, w) (by simp)
    have ih := ih fun c hc => h c (by simp [hc])
    by_cases hlt : n < j
    · simp [insertCell, hlt, lookupCell, eq_comm]
    · by_cases hjk : j = k
      · have hkn : k ≠ n := hjk ▸ hj
        have hnk : ¬n < k := hjk ▸ hlt
        simp [insertCell, hnk, lookupCell, hjk, hkn]
      · simp [insertCell, hlt, lookupCell, hjk, ih]

theorem mem_removeCell {cells : List Host.Cell} {n : Nat} {c : Host.Cell} :
    c ∈ removeCell n cells ↔ c ∈ cells ∧ c.1 ≠ n := by
  simp [removeCell]

theorem mem_insertCell {cells : List Host.Cell} {n : Nat} {v : Byte} {c : Host.Cell} :
    c ∈ insertCell n v cells ↔ c = (n, v) ∨ c ∈ cells := by
  induction cells with
  | nil => simp [insertCell]
  | cons d rest ih =>
    obtain ⟨j, w⟩ := d
    by_cases hlt : n < j
    · simp [insertCell, hlt]
    · simp only [insertCell, hlt, if_false, List.mem_cons, ih]
      tauto

/-- Writing a cell changes what that address reads as, and no other, in any list of cells. -/
theorem lookupCell_writeCell (cells : List Host.Cell) (n k : Nat) (v : Byte) :
    lookupCell (writeCell n v cells) k = if k = n then v else lookupCell cells k := by
  unfold writeCell
  split
  · next h => simp [lookupCell_removeCell, h]
  · rw [lookupCell_insertCell _ _ _ _ fun c hc => (mem_removeCell.1 hc).2, lookupCell_removeCell]
    split <;> simp_all

/-- A cell of the written list is the written one or an old one. -/
theorem mem_writeCell {cells : List Host.Cell} {n : Nat} {v : Byte} {c : Host.Cell} (h : c ∈ writeCell n v cells) :
    c = (n, v) ∨ c ∈ cells := by
  unfold writeCell at h
  split at h
  · exact .inr (mem_removeCell.1 h).1
  · exact (mem_insertCell.1 h).imp id fun h => (mem_removeCell.1 h).1

theorem canonical_removeCell {cells : List Host.Cell} (n : Nat) (h : canonical cells) :
    canonical (removeCell n cells) :=
  ⟨h.1.filter _, fun c hc => h.2 c (mem_removeCell.1 hc).1⟩

theorem pairwise_insertCell {cells : List Host.Cell} (n : Nat) (v : Byte)
    (h : cells.Pairwise fun c d => c.1 < d.1) (hn : ∀ c ∈ cells, c.1 ≠ n) :
    (insertCell n v cells).Pairwise fun c d => c.1 < d.1 := by
  induction cells with
  | nil => simp [insertCell]
  | cons d rest ih =>
    obtain ⟨j, w⟩ := d
    obtain ⟨hd, hrest⟩ := List.pairwise_cons.1 h
    have hj : j ≠ n := hn (j, w) (by simp)
    by_cases hlt : n < j
    · simp only [insertCell, hlt, if_true, List.pairwise_cons]
      refine ⟨fun c hc => ?_, hd, hrest⟩
      rcases List.mem_cons.1 hc with rfl | hc
      · exact hlt
      · exact lt_trans hlt (hd c hc)
    · simp only [insertCell, hlt, if_false, List.pairwise_cons]
      refine ⟨fun c hc => ?_, ih hrest fun c hc => hn c (by simp [hc])⟩
      rcases mem_insertCell.1 hc with rfl | hc
      · show j < n
        omega
      · exact hd c hc

/-- Writing a cell keeps the canonical form. -/
theorem canonical_writeCell {cells : List Host.Cell} (n : Nat) (v : Byte) (h : canonical cells) :
    canonical (writeCell n v cells) := by
  unfold writeCell
  split
  · exact canonical_removeCell n h
  · next hv =>
    have hr := canonical_removeCell n h
    refine ⟨pairwise_insertCell n v hr.1 fun c hc => (mem_removeCell.1 hc).2, fun c hc => ?_⟩
    rcases mem_insertCell.1 hc with rfl | hc
    · exact hv
    · exact hr.2 c hc

/-! ### Bytes -/

@[simp] theorem Memory.isBacked_setByte (m : Memory) (a x : Word) (v : Byte) :
    (m.setByte a v).isBacked x = m.isBacked x := rfl

@[simp] theorem Memory.isBacked_putWord (m : Memory) (p v x : Word) : (m.putWord p v).isBacked x = m.isBacked x := rfl

/-- Read after write, one byte: the written address reads as written, every other one as before. -/
theorem Memory.byteAt_setByte (m : Memory) (a x : Word) (v : Byte) :
    (m.setByte a v).byteAt x = if x = a then v else m.byteAt x := by
  simp [Memory.byteAt, lookupCell_writeCell, BitVec.toNat_inj]

/-- The bytes of memory after a word is put at `p`; the four addresses are distinct (R51, R54). -/
theorem Memory.byteAt_putWord (m : Memory) (p v x : Word) :
    (m.putWord p v).byteAt x =
      if x = p + 3#32 then v.extractLsb' 0 8
      else if x = p + 2#32 then v.extractLsb' 8 8
      else if x = p + 1#32 then v.extractLsb' 16 8
      else if x = p then v.extractLsb' 24 8 else m.byteAt x := by
  simp [Memory.putWord, Memory.byteAt_setByte]

/-! ### Canonical form -/

/-- A memory with nothing listed is in canonical form, whatever is backed. -/
theorem Memory.wf_empty (backed : List Region) : Memory.wf ⟨backed, []⟩ := by
  simp [Memory.wf, canonical]

/-- Writing a backed byte keeps the canonical form. -/
theorem Memory.wf_setByte {m : Memory} {a : Word} (v : Byte) (h : m.wf) (ha : m.isBacked a = true) :
    (m.setByte a v).wf := by
  refine ⟨canonical_writeCell _ _ h.1, fun c hc => ?_⟩
  rcases mem_writeCell hc with rfl | hc
  · exact ⟨a.isLt, by simpa using ha⟩
  · exact h.2 c hc

/-- Putting a word at four backed addresses keeps the canonical form. -/
theorem Memory.wf_putWord {m : Memory} {p : Word} (v : Word) (h : m.wf)
    (hp : ∀ x ∈ wordAddrs p, m.isBacked x = true) : (m.putWord p v).wf := by
  simp only [wordAddrs, List.mem_cons, List.not_mem_nil, or_false, forall_eq_or_imp, forall_eq] at hp
  exact Memory.wf_setByte _ (Memory.wf_setByte _ (Memory.wf_setByte _ (Memory.wf_setByte _ h hp.1)
    hp.2.1) hp.2.2.1) hp.2.2.2

/-! ### The access primitives -/

/-- No address of the list fails `MEM_VALID` (R55, R56). -/
theorem Memory.firstUnbacked_eq_none {m : Memory} {addrs : List Word} :
    m.firstUnbacked addrs = none ↔ ∀ x ∈ addrs, m.isBacked x = true := by
  simp [Memory.firstUnbacked]

/-- An address that is reported is in the list and fails `MEM_VALID` (R55, R56). -/
theorem Memory.firstUnbacked_eq_some {m : Memory} {addrs : List Word} {x : Word}
    (h : m.firstUnbacked addrs = some x) : x ∈ addrs ∧ m.isBacked x = false := by
  have h2 := List.find?_some h
  exact ⟨List.mem_of_find?_eq_some h, by simpa using h2⟩

/-- A word read succeeds exactly on four backed bytes, and gives them big-endian (R55). -/
theorem Memory.readWord_eq_ok {m : Memory} {p v : Word} :
    m.readWord p = .ok v ↔ (∀ x ∈ wordAddrs p, m.isBacked x = true) ∧
      v = bigEndian (m.byteAt p) (m.byteAt (p + 1#32)) (m.byteAt (p + 2#32)) (m.byteAt (p + 3#32)) := by
  rw [← Memory.firstUnbacked_eq_none]
  cases h : m.firstUnbacked (wordAddrs p) <;> simp [Memory.readWord, h, eq_comm]

/-- A word read fails exactly with the first unbacked address (R55). -/
theorem Memory.readWord_eq_error {m : Memory} {p : Word} {f : Fault} :
    m.readWord p = .error f ↔ ∃ x, m.firstUnbacked (wordAddrs p) = some x ∧ f = .memUnmapped x := by
  cases h : m.firstUnbacked (wordAddrs p) <;> simp [Memory.readWord, h, eq_comm]

/-- A byte read succeeds exactly on a backed byte (R55). -/
theorem Memory.readByte_eq_ok {m : Memory} {p : Word} {v : Byte} :
    m.readByte p = .ok v ↔ m.isBacked p = true ∧ v = m.byteAt p := by
  cases h : m.isBacked p <;> simp [Memory.readByte, Memory.firstUnbacked, h, eq_comm]

/-- A byte read fails exactly on an unbacked byte (R55). -/
theorem Memory.readByte_eq_error {m : Memory} {p : Word} {f : Fault} :
    m.readByte p = .error f ↔ m.isBacked p = false ∧ f = .memUnmapped p := by
  cases h : m.isBacked p <;> simp [Memory.readByte, Memory.firstUnbacked, h, eq_comm]

/-- A word write succeeds exactly on four backed bytes (R56). -/
theorem Memory.writeWord_eq_ok {m m' : Memory} {p v : Word} :
    m.writeWord p v = .ok m' ↔ (∀ x ∈ wordAddrs p, m.isBacked x = true) ∧ m' = m.putWord p v := by
  rw [← Memory.firstUnbacked_eq_none]
  cases h : m.firstUnbacked (wordAddrs p) <;> simp [Memory.writeWord, h, eq_comm]

/-- A word write fails exactly with the first unbacked address (R56). -/
theorem Memory.writeWord_eq_error {m : Memory} {p v : Word} {f : Fault} :
    m.writeWord p v = .error f ↔ ∃ x, m.firstUnbacked (wordAddrs p) = some x ∧ f = .memUnmapped x := by
  cases h : m.firstUnbacked (wordAddrs p) <;> simp [Memory.writeWord, h, eq_comm]

/-- A byte write succeeds exactly on a backed byte (R56). -/
theorem Memory.writeByte_eq_ok {m m' : Memory} {p : Word} {v : Byte} :
    m.writeByte p v = .ok m' ↔ m.isBacked p = true ∧ m' = m.setByte p v := by
  cases h : m.isBacked p <;> simp [Memory.writeByte, Memory.firstUnbacked, h, eq_comm]

/-- A byte write fails exactly on an unbacked byte (R56). -/
theorem Memory.writeByte_eq_error {m : Memory} {p : Word} {v : Byte} {f : Fault} :
    m.writeByte p v = .error f ↔ m.isBacked p = false ∧ f = .memUnmapped p := by
  cases h : m.isBacked p <;> simp [Memory.writeByte, Memory.firstUnbacked, h, eq_comm]

/-- A word write keeps the canonical form. -/
theorem Memory.wf_writeWord {m m' : Memory} {p v : Word} (h : m.wf) (hw : m.writeWord p v = .ok m') : m'.wf := by
  obtain ⟨hp, rfl⟩ := Memory.writeWord_eq_ok.1 hw
  exact Memory.wf_putWord v h hp

/-- A byte write keeps the canonical form. -/
theorem Memory.wf_writeByte {m m' : Memory} {p : Word} {v : Byte} (h : m.wf) (hw : m.writeByte p v = .ok m') :
    m'.wf := by
  obtain ⟨hp, rfl⟩ := Memory.writeByte_eq_ok.1 hw
  exact Memory.wf_setByte v h hp

/-- Placing a byte keeps the canonical form, where it has to add the address to the map too. -/
theorem Memory.wf_place {m : Memory} (a : Word) (v : Byte) (h : m.wf) : (m.place a v).wf := by
  unfold Memory.place
  split
  · next ha => exact Memory.wf_setByte v h ha
  · refine ⟨canonical_writeCell _ _ h.1, fun c hc => ?_⟩
    rcases mem_writeCell hc with rfl | hc
    · exact ⟨a.isLt, by simp [Memory.isBacked, Region.contains]⟩
    · have := h.2 c hc
      exact ⟨this.1, by simp only [Memory.isBacked, List.any_cons, Bool.or_eq_true]; exact .inr this.2⟩

end Sys2Proof.Machine
end

