-- ==== Sys2Proof/Laws/Registers.lean ====
section
/-! SUPPORT. What reading and writing a register do (10_state.md R27, R28), and what the mode check and the
register-writing instructions answer. -/

namespace Sys2Proof.Machine

variable (s : State)

/-! ### Reading -/

@[simp] theorem State.readReg_r0 : s.readReg .r0 = 0#32 := rfl
@[simp] theorem State.readReg_r12 : s.readReg .r12 = s.sw := rfl
@[simp] theorem State.readReg_r13 : s.readReg .r13 = s.regs.r13 := rfl
@[simp] theorem State.readReg_r14 : s.readReg .r14 = s.regs.r14 := rfl
@[simp] theorem State.readReg_r15 : s.readReg .r15 = s.pc := rfl

@[simp] theorem State.readReg_setMem (m : Memory) (r : Reg) : (s.setMem m).readReg r = s.readReg r := by
  cases r <;> rfl

@[simp] theorem State.readReg_setInt (b : Bool) (r : Reg) : (s.setInt b).readReg r = s.readReg r := by
  cases r <;> rfl

@[simp] theorem State.readReg_setLine (l : List (Option Word)) (r : Reg) : (s.setLine l).readReg r = s.readReg r := by
  cases r <;> rfl

theorem State.readReg_setPc (x : Word) (r : Reg) : (s.setPc x).readReg r = if r = .r15 then x else s.readReg r := by
  cases r <;> rfl

theorem State.readReg_setSw (x : Word) (r : Reg) : (s.setSw x).readReg r = if r = .r12 then x else s.readReg r := by
  cases r <;> rfl

/-- Two states that read the same in all sixteen registers have the same registers, SW and pc. -/
theorem State.fields_of_readReg {s t : State} (h : ∀ r, t.readReg r = s.readReg r) :
    t.regs = s.regs ∧ t.sw = s.sw ∧ t.pc = s.pc := by
  obtain ⟨⟨⟩, _, _, _, _, _⟩ := s
  obtain ⟨⟨⟩, _, _, _, _, _⟩ := t
  have h1 := h .r1
  have h2 := h .r2
  have h3 := h .r3
  have h4 := h .r4
  have h5 := h .r5
  have h6 := h .r6
  have h7 := h .r7
  have h8 := h .r8
  have h9 := h .r9
  have h10 := h .r10
  have h11 := h .r11
  have h12 := h .r12
  have h13 := h .r13
  have h14 := h .r14
  have h15 := h .r15
  simp_all [State.readReg]

/-! ### Writing -/

@[simp] theorem State.writeReg_int (a : Reg) (v : Word) : (s.writeReg a v).int = s.int := by
  cases a <;> rfl

@[simp] theorem State.writeReg_mem (a : Reg) (v : Word) : (s.writeReg a v).mem = s.mem := by
  cases a <;> rfl

@[simp] theorem State.writeReg_line (a : Reg) (v : Word) : (s.writeReg a v).line = s.line := by
  cases a <;> rfl

theorem State.writeReg_sw (a : Reg) (v : Word) : (s.writeReg a v).sw = if a = .r12 then v else s.sw := by
  cases a <;> rfl

theorem State.writeReg_pc (a : Reg) (v : Word) : (s.writeReg a v).pc = if a = .r15 then v else s.pc := by
  cases a <;> rfl

/-- Writing register `a` and reading register `r` (R21, R27, R28). -/
theorem State.readReg_writeReg (a r : Reg) (v : Word) :
    (s.writeReg a v).readReg r = if r = a then (if a = .r0 then 0#32 else v) else s.readReg r := by
  cases a <;> cases r <;> rfl

@[simp] theorem State.lowerSp_int (n : Word) : (s.lowerSp n).int = s.int := rfl
@[simp] theorem State.lowerSp_mem (n : Word) : (s.lowerSp n).mem = s.mem := rfl
@[simp] theorem State.lowerSp_line (n : Word) : (s.lowerSp n).line = s.line := rfl
@[simp] theorem State.lowerSp_sw (n : Word) : (s.lowerSp n).sw = s.sw := rfl
@[simp] theorem State.lowerSp_pc (n : Word) : (s.lowerSp n).pc = s.pc := rfl
@[simp] theorem State.raiseSp_int (n : Word) : (s.raiseSp n).int = s.int := rfl
@[simp] theorem State.raiseSp_mem (n : Word) : (s.raiseSp n).mem = s.mem := rfl
@[simp] theorem State.raiseSp_line (n : Word) : (s.raiseSp n).line = s.line := rfl
@[simp] theorem State.raiseSp_sw (n : Word) : (s.raiseSp n).sw = s.sw := rfl
@[simp] theorem State.raiseSp_pc (n : Word) : (s.raiseSp n).pc = s.pc := rfl

/-- Lowering SP changes R13 alone (R180). -/
theorem State.readReg_lowerSp (n : Word) (r : Reg) :
    (s.lowerSp n).readReg r = if r = .r13 then s.readReg .r13 - n else s.readReg r := by
  simp [State.lowerSp, State.readReg_writeReg]

/-- Raising SP changes R13 alone (R180). -/
theorem State.readReg_raiseSp (n : Word) (r : Reg) :
    (s.raiseSp n).readReg r = if r = .r13 then s.readReg .r13 + n else s.readReg r := by
  simp [State.raiseSp, State.readReg_writeReg]

/-! ### The mode check -/

/-- Register `a` may be written except R12 in user mode (R38). -/
theorem State.mayWrite_eq_false {s : State} {a : Reg} : s.mayWrite a = false ↔ a = .r12 ∧ s.superMode = false := by
  simp [State.mayWrite]

/-- A checked instruction that goes on passed the check and went on (R38). -/
theorem withDest_eq_next {a : Reg} {s t : State} {k : Host.Outcome State Fault Refusal} :
    withDest a s k = .next t ↔ s.mayWrite a = true ∧ k = .next t := by
  cases h : s.mayWrite a <;> simp [withDest, h]

/-- A checked instruction that faults failed the check, or passed it and faulted later (R38, R191). -/
theorem withDest_eq_fault {a : Reg} {s : State} {k : Host.Outcome State Fault Refusal} {f : Fault} :
    withDest a s k = .fault f ↔
      (s.mayWrite a = false ∧ f = .userWriteSW s.instrAddr) ∨ (s.mayWrite a = true ∧ k = .fault f) := by
  cases h : s.mayWrite a <;> simp [withDest, h, eq_comm]

/-- A checked instruction is refused only by what follows the check. -/
theorem withDest_eq_refused {a : Reg} {s : State} {k : Host.Outcome State Fault Refusal} {r : Refusal} :
    withDest a s k = .refused r ↔ s.mayWrite a = true ∧ k = .refused r := by
  cases h : s.mayWrite a <;> simp [withDest, h]

/-- A register-writing instruction that goes on wrote its register. -/
theorem setDest_eq_next {a : Reg} {v : Word} {s t : State} :
    setDest a v s = .next t ↔ s.mayWrite a = true ∧ t = s.writeReg a v := by
  cases h : s.mayWrite a <;> simp [setDest, withDest, h, eq_comm]

/-- A register-writing instruction faults only by the mode check. -/
theorem setDest_eq_fault {a : Reg} {v : Word} {s : State} {f : Fault} :
    setDest a v s = .fault f ↔ s.mayWrite a = false ∧ f = .userWriteSW s.instrAddr := by
  simp [setDest, withDest_eq_fault]

/-- A register-writing instruction is never refused. -/
theorem setDest_ne_refused {a : Reg} {v : Word} {s : State} {r : Refusal} : setDest a v s ≠ .refused r := by
  simp [setDest, withDest_eq_refused]

end Sys2Proof.Machine
end

