-- ==== Sys2Proof/Laws/Execution.lean ====
section
/-! SUPPORT. What the shared operations of the meanings, the interrupt entry and return, and the step can do, said once
each. -/

namespace Sys2Proof.Machine

/-! ### Loads -/

/-- A word load that goes on read four backed bytes and wrote its register (R111, R115). -/
theorem loadWord_eq_next {a : Reg} {ea : Word} {s t : State} :
    loadWord a ea s = .next t ↔
      s.mayWrite a = true ∧ ∃ v, s.mem.readWord ea = .ok v ∧ t = s.writeReg a v := by
  rw [loadWord, withDest_eq_next]
  cases s.mem.readWord ea <;> simp [@eq_comm _ t]

/-- A word load faults by the mode check, or then by an unbacked byte (R191). -/
theorem loadWord_eq_fault {a : Reg} {ea : Word} {s : State} {f : Fault} :
    loadWord a ea s = .fault f ↔
      (s.mayWrite a = false ∧ f = .userWriteSW s.instrAddr) ∨
        (s.mayWrite a = true ∧ s.mem.readWord ea = .error f) := by
  rw [loadWord, withDest_eq_fault]
  cases s.mem.readWord ea <;> simp

/-- A byte load that goes on read a backed byte and wrote its register (R113, R117). -/
theorem loadByte_eq_next {a : Reg} {ea : Word} {s t : State} :
    loadByte a ea s = .next t ↔
      s.mayWrite a = true ∧ ∃ v, s.mem.readByte ea = .ok v ∧ t = s.writeReg a (extendByte v) := by
  rw [loadByte, withDest_eq_next]
  cases s.mem.readByte ea <;> simp [@eq_comm _ t]

/-- A byte load faults by the mode check, or then by an unbacked byte (R191). -/
theorem loadByte_eq_fault {a : Reg} {ea : Word} {s : State} {f : Fault} :
    loadByte a ea s = .fault f ↔
      (s.mayWrite a = false ∧ f = .userWriteSW s.instrAddr) ∨
        (s.mayWrite a = true ∧ s.mem.readByte ea = .error f) := by
  rw [loadByte, withDest_eq_fault]
  cases s.mem.readByte ea <;> simp

/-- A loaded byte is zero-extended (R57). -/
theorem extendByte_eq (v : Byte) : extendByte v = v.setWidth 32 := rfl

/-! ### Stores -/

/-- A word store that goes on wrote four backed bytes and nothing else (R112, R116). -/
theorem storeWord_eq_next {ea v : Word} {s t : State} :
    storeWord ea v s = .next t ↔ ∃ m, s.mem.writeWord ea v = .ok m ∧ t = s.setMem m := by
  rw [storeWord]
  cases s.mem.writeWord ea v <;> simp [eq_comm]

/-- A word store faults only by an unbacked byte. -/
theorem storeWord_eq_fault {ea v : Word} {s : State} {f : Fault} :
    storeWord ea v s = .fault f ↔ s.mem.writeWord ea v = .error f := by
  rw [storeWord]
  cases s.mem.writeWord ea v <;> simp

/-- A byte store that goes on wrote one backed byte and nothing else (R114, R118). -/
theorem storeByte_eq_next {ea v : Word} {s t : State} :
    storeByte ea v s = .next t ↔ ∃ m, s.mem.writeByte ea (lowByte v) = .ok m ∧ t = s.setMem m := by
  rw [storeByte]
  cases s.mem.writeByte ea (lowByte v) <;> simp [eq_comm]

/-- A byte store faults only by an unbacked byte. -/
theorem storeByte_eq_fault {ea v : Word} {s : State} {f : Fault} :
    storeByte ea v s = .fault f ↔ s.mem.writeByte ea (lowByte v) = .error f := by
  rw [storeByte]
  cases s.mem.writeByte ea (lowByte v) <;> simp

/-! ### Pops -/

/-- A word pop that goes on wrote its register and then moved SP (R182). -/
theorem execPop_eq_next {a : Reg} {s t : State} :
    execPop a s = .next t ↔
      s.mayWrite a = true ∧ ∃ v, s.mem.readWord (s.readReg .r13) = .ok v ∧ t = (s.writeReg a v).raiseSp 4#32 := by
  rw [execPop, withDest_eq_next]
  cases s.mem.readWord (s.readReg .r13) <;> simp [@eq_comm _ t]

/-- A byte pop that goes on wrote its register and then moved SP (R184). -/
theorem execPopb_eq_next {a : Reg} {s t : State} :
    execPopb a s = .next t ↔
      s.mayWrite a = true ∧
        ∃ v, s.mem.readByte (s.readReg .r13) = .ok v ∧ t = (s.writeReg a (extendByte v)).raiseSp 1#32 := by
  rw [execPopb, withDest_eq_next]
  cases s.mem.readByte (s.readReg .r13) <;> simp [@eq_comm _ t]

/-! ### Interrupts -/

@[simp] theorem enterInterrupt_pc (x : Word) (s : State) : (enterInterrupt x s).pc = x := rfl
@[simp] theorem enterInterrupt_int (x : Word) (s : State) : (enterInterrupt x s).int = true := rfl
@[simp] theorem enterInterrupt_sw (x : Word) (s : State) : (enterInterrupt x s).sw = s.sw := rfl
@[simp] theorem enterInterrupt_mem (x : Word) (s : State) : (enterInterrupt x s).mem = s.mem := rfl
@[simp] theorem enterInterrupt_line (x : Word) (s : State) : (enterInterrupt x s).line = s.line := rfl

/-- Taking an interrupt writes R14 and pc and no other register (R195 to R198). -/
theorem readReg_enterInterrupt (x : Word) (s : State) (r : Reg) :
    (enterInterrupt x s).readReg r = if r = .r15 then x else if r = .r14 then s.pc else s.readReg r := by
  simp [enterInterrupt, State.readReg_setPc, State.readReg_writeReg]

@[simp] theorem returnFromInterrupt_pc (s : State) : (returnFromInterrupt s).pc = s.regs.r14 := rfl
@[simp] theorem returnFromInterrupt_int (s : State) : (returnFromInterrupt s).int = false := rfl
@[simp] theorem returnFromInterrupt_sw (s : State) : (returnFromInterrupt s).sw = s.sw := rfl
@[simp] theorem returnFromInterrupt_mem (s : State) : (returnFromInterrupt s).mem = s.mem := rfl
@[simp] theorem returnFromInterrupt_line (s : State) : (returnFromInterrupt s).line = s.line := rfl

/-- Returning from an interrupt writes pc and no other register (R199). -/
theorem readReg_returnFromInterrupt (s : State) (r : Reg) :
    (returnFromInterrupt s).readReg r = if r = .r15 then s.readReg .r14 else s.readReg r := by
  simp [returnFromInterrupt, State.readReg_setPc]

/-! ### The boundary -/

/-- A request is taken exactly with I = 1, INT = 0 and the environment presenting it (R192, R202). -/
theorem State.takenRequest_eq_some {s : State} {addr : Word} :
    s.takenRequest = some addr ↔ s.flagI = true ∧ s.int = false ∧ s.line.head? = some (some addr) := by
  have hr : s.request = some addr ↔ s.line.head? = some (some addr) := by
    unfold State.request
    cases s.line <;> simp
  unfold State.takenRequest
  by_cases he : s.hwiEnabled = true
  · rw [if_pos he, hr]
    simp only [State.hwiEnabled, Bool.and_eq_true, Bool.not_eq_true'] at he
    simp [he]
  · rw [if_neg he]
    simp only [State.hwiEnabled, Bool.and_eq_true, Bool.not_eq_true', not_and] at he
    simp only [reduceCtorEq, false_iff, not_and]
    intro hI hi
    exact absurd hi (he hI)

/-- Nothing is taken where I = 0, INT = 1 or nothing is presented (R192, R202). -/
theorem State.takenRequest_eq_none {s : State} : s.takenRequest = none ↔ s.noEntry := by
  rw [← not_iff_not, ← ne_eq, Option.ne_none_iff_exists']
  simp only [State.takenRequest_eq_some, State.noEntry]
  cases s.flagI <;> cases s.int <;> rcases s.line with _ | ⟨_ | _, _⟩ <;> simp

/-! ### The step -/

@[simp] theorem fetch_passBoundary (s : State) : fetch s.passBoundary = fetch s := rfl

/-- A step that goes on took a hardware interrupt, or ran one instruction (R201). -/
theorem step_eq_next {s t : State} :
    step s = .next t ↔
      (∃ addr, s.takenRequest = some addr ∧ t = enterInterrupt addr s.passBoundary) ∨
        ∃ i, s.runs i ∧ exec i s.passBoundary.advance = .next t := by
  unfold step State.runs
  cases hr : s.takenRequest with
  | some addr => simp [eq_comm]
  | none =>
    unfold runInstruction
    rw [fetch_passBoundary]
    cases hf : fetch s with
    | error f => simp
    | ok ir =>
      cases hd : decodeWord ir with
      | error e => simp [hd]
      | ok i => simp [hd]

/-- A step that faults took no hardware interrupt; its fetch, its decoding or its instruction faulted, in that order
(R191). -/
theorem step_eq_fault {s : State} {f : Fault} :
    step s = .fault f ↔
      s.takenRequest = none ∧
        (fetch s = .error f ∨
          (∃ ir e, fetch s = .ok ir ∧ decodeWord ir = .error e ∧ f = .illegalInstruction s.pc ir) ∨
            ∃ i, s.runs i ∧ exec i s.passBoundary.advance = .fault f) := by
  unfold step State.runs
  cases hr : s.takenRequest with
  | some addr => simp
  | none =>
    unfold runInstruction
    rw [fetch_passBoundary]
    cases hf : fetch s with
    | error f => simp
    | ok ir =>
      cases hd : decodeWord ir with
      | error e => simp [hd, eq_comm]
      | ok i => simp [hd]

/-- A step is refused only by its instruction. -/
theorem step_eq_refused {s : State} {r : Refusal} :
    step s = .refused r ↔ ∃ i, s.runs i ∧ exec i s.passBoundary.advance = .refused r := by
  unfold step State.runs
  cases hr : s.takenRequest with
  | some addr => simp
  | none =>
    unfold runInstruction
    rw [fetch_passBoundary]
    cases hf : fetch s with
    | error f => simp
    | ok ir =>
      cases hd : decodeWord ir with
      | error e => simp [hd]
      | ok i => simp [hd]

end Sys2Proof.Machine
end

