-- ==== Sys2Proof/Laws/Flags.lean ====
section
/-! SUPPORT. Replacing one bit of the status word. -/

namespace Sys2Proof.Machine

/-- Replacing bit `k` changes that bit and no other. -/
theorem getLsbD_setBit (sw : Word) (k j : Nat) (v : Bool) (hk : k < 32) :
    (setBit sw k v).getLsbD j = if j = k then v else sw.getLsbD j := by
  unfold setBit
  by_cases hj : j < 32
  · cases v <;> simp [hj] <;> grind
  · have hjk : j ≠ k := by omega
    have hsw : sw.getLsbD j = false := BitVec.getLsbD_of_ge _ _ (by omega)
    have hkj : ¬k = j := fun e => hjk e.symm
    cases v <;> simp [BitVec.getLsbD_twoPow, hj, hjk, hkj, hsw]

end Sys2Proof.Machine
end

