-- ==== Sys2Proof/Laws/PerInstr.lean ====
section
/-! SUPPORT. Per-instruction facts: the OP field of an instruction's canonical word is its OP value in the opcode table
(30_encoding.md R88, R94). -/

namespace Sys2Proof.Laws

/-- The encoder puts the instruction's OP value in bits 31..24. -/
def EncodeOpcode.Statement (i : Instr) : Prop := opField (encode i) = i.opcode

theorem EncodeOpcode.ld (a : Reg) (b : Reg) (c16 : Word) : EncodeOpcode.Statement (.ld a b c16) :=
  opField_formatL _ _ _ _

theorem EncodeOpcode.st (a : Reg) (b : Reg) (c16 : Word) : EncodeOpcode.Statement (.st a b c16) :=
  opField_formatL _ _ _ _

theorem EncodeOpcode.ldb (a : Reg) (b : Reg) (c16 : Word) : EncodeOpcode.Statement (.ldb a b c16) :=
  opField_formatL _ _ _ _

theorem EncodeOpcode.stb (a : Reg) (b : Reg) (c16 : Word) : EncodeOpcode.Statement (.stb a b c16) :=
  opField_formatL _ _ _ _

theorem EncodeOpcode.ldr (a : Reg) (b : Reg) (c : Reg) : EncodeOpcode.Statement (.ldr a b c) :=
  opField_formatA _ _ _ _ _

theorem EncodeOpcode.str (a : Reg) (b : Reg) (c : Reg) : EncodeOpcode.Statement (.str a b c) :=
  opField_formatA _ _ _ _ _

theorem EncodeOpcode.lbr (a : Reg) (b : Reg) (c : Reg) : EncodeOpcode.Statement (.lbr a b c) :=
  opField_formatA _ _ _ _ _

theorem EncodeOpcode.sbr (a : Reg) (b : Reg) (c : Reg) : EncodeOpcode.Statement (.sbr a b c) :=
  opField_formatA _ _ _ _ _

theorem EncodeOpcode.ldi (a : Reg) (c16 : Word) : EncodeOpcode.Statement (.ldi a c16) :=
  opField_formatL _ _ _ _

theorem EncodeOpcode.cmp (a : Reg) (b : Reg) : EncodeOpcode.Statement (.cmp a b) :=
  opField_formatA _ _ _ _ _

theorem EncodeOpcode.mov (a : Reg) (b : Reg) : EncodeOpcode.Statement (.mov a b) :=
  opField_formatA _ _ _ _ _

theorem EncodeOpcode.add (a : Reg) (b : Reg) (c : Reg) : EncodeOpcode.Statement (.add a b c) :=
  opField_formatA _ _ _ _ _

theorem EncodeOpcode.sub (a : Reg) (b : Reg) (c : Reg) : EncodeOpcode.Statement (.sub a b c) :=
  opField_formatA _ _ _ _ _

theorem EncodeOpcode.mul (a : Reg) (b : Reg) (c : Reg) : EncodeOpcode.Statement (.mul a b c) :=
  opField_formatA _ _ _ _ _

theorem EncodeOpcode.div (a : Reg) (b : Reg) (c : Reg) : EncodeOpcode.Statement (.div a b c) :=
  opField_formatA _ _ _ _ _

theorem EncodeOpcode.and (a : Reg) (b : Reg) (c : Reg) : EncodeOpcode.Statement (.and a b c) :=
  opField_formatA _ _ _ _ _

theorem EncodeOpcode.or (a : Reg) (b : Reg) (c : Reg) : EncodeOpcode.Statement (.or a b c) :=
  opField_formatA _ _ _ _ _

theorem EncodeOpcode.xor (a : Reg) (b : Reg) (c : Reg) : EncodeOpcode.Statement (.xor a b c) :=
  opField_formatA _ _ _ _ _

theorem EncodeOpcode.addi (a : Reg) (b : Reg) (c12 : Word) : EncodeOpcode.Statement (.addi a b c12) :=
  opField_formatA _ _ _ _ _

theorem EncodeOpcode.rol (a : Reg) (b : Reg) (n : Nat) : EncodeOpcode.Statement (.rol a b n) :=
  opField_formatA _ _ _ _ _

theorem EncodeOpcode.ror (a : Reg) (b : Reg) (n : Nat) : EncodeOpcode.Statement (.ror a b n) :=
  opField_formatA _ _ _ _ _

theorem EncodeOpcode.shl (a : Reg) (b : Reg) (n : Nat) : EncodeOpcode.Statement (.shl a b n) :=
  opField_formatA _ _ _ _ _

theorem EncodeOpcode.shr (a : Reg) (b : Reg) (n : Nat) : EncodeOpcode.Statement (.shr a b n) :=
  opField_formatA _ _ _ _ _

theorem EncodeOpcode.jeq (c24 : Word) : EncodeOpcode.Statement (.jeq c24) :=
  opField_formatJ _ _

theorem EncodeOpcode.jne (c24 : Word) : EncodeOpcode.Statement (.jne c24) :=
  opField_formatJ _ _

theorem EncodeOpcode.jlt (c24 : Word) : EncodeOpcode.Statement (.jlt c24) :=
  opField_formatJ _ _

theorem EncodeOpcode.jgt (c24 : Word) : EncodeOpcode.Statement (.jgt c24) :=
  opField_formatJ _ _

theorem EncodeOpcode.jle (c24 : Word) : EncodeOpcode.Statement (.jle c24) :=
  opField_formatJ _ _

theorem EncodeOpcode.jge (c24 : Word) : EncodeOpcode.Statement (.jge c24) :=
  opField_formatJ _ _

theorem EncodeOpcode.jmp (c24 : Word) : EncodeOpcode.Statement (.jmp c24) :=
  opField_formatJ _ _

theorem EncodeOpcode.swi (c24 : Word) : EncodeOpcode.Statement (.swi c24) :=
  opField_formatJ _ _

theorem EncodeOpcode.call (c24 : Word) : EncodeOpcode.Statement (.call c24) :=
  opField_formatJ _ _

theorem EncodeOpcode.ret : EncodeOpcode.Statement .ret :=
  opField_formatJ _ _

theorem EncodeOpcode.iret : EncodeOpcode.Statement .iret :=
  opField_formatJ _ _

theorem EncodeOpcode.push (a : Reg) : EncodeOpcode.Statement (.push a) :=
  opField_formatA _ _ _ _ _

theorem EncodeOpcode.pop (a : Reg) : EncodeOpcode.Statement (.pop a) :=
  opField_formatA _ _ _ _ _

theorem EncodeOpcode.pushb (a : Reg) : EncodeOpcode.Statement (.pushb a) :=
  opField_formatA _ _ _ _ _

theorem EncodeOpcode.popb (a : Reg) : EncodeOpcode.Statement (.popb a) :=
  opField_formatA _ _ _ _ _

end Sys2Proof.Laws
end

