-- ==== Sys2Proof/Tests/Slice0.lean ====
section
/-! SUPPORT. Tests: well-formedness, decoding, one step per vector, and for every statement with hypotheses a witness
that meets them. The words and the results are those of 95_test_vectors.md; `E1`, `L1`, ... name its tables. -/

namespace Sys2Proof.Tests

open Sys2Proof Sys2Proof.Machine

/-! ### Helpers -/

/-- The state with registers written. -/
def put (l : List (Reg × Word)) (s : State) : State := l.foldl (fun s p => s.writeReg p.1 p.2) s

/-- Memory with the bytes of `l` from `p` on. -/
def withBytes (p : Word) : List Byte → Memory → Memory
  | [], m => m
  | v :: rest, m => withBytes (p + 1#32) rest (m.setByte p v)

/-- The state with the bytes of `l` from `p` on. -/
def poke (p : Word) (l : List Byte) (s : State) : State := s.setMem (withBytes p l s.mem)

/-- Reset state with one word placed at 0x100, where the vectors have it, and `pc` there. -/
def at100 (w : Word) : State := (State.reset.setPc 0x100#32).placeWord w

/-- The memory of table L1. -/
def l1 (w : Word) : State :=
  poke 0x200#32 [0x12#8, 0x34#8, 0x56#8, 0x78#8, 0x9A#8, 0xBC#8, 0xDE#8, 0xF0#8] (at100 w)

/-- The four bytes from `p` on. -/
def word (s : State) (p : Word) : Word := wordAt s.mem p

/-- The outcome is a next state with the property. -/
def nextWith (f : State → Bool) : Host.Outcome State Fault Refusal → Bool
  | .next t => f t
  | .fault _ => false
  | .refused _ => false

/-- The outcome is this fault. -/
def faultsWith (x : Fault) : Host.Outcome State Fault Refusal → Bool
  | .next _ => false
  | .fault y => decide (x = y)
  | .refused _ => false

/-- One step leads to a state in which register `r` reads `v`. -/
def gives (r : Reg) (v : Word) (s : State) : Bool := nextWith (fun t => decide (t.readReg r = v)) (step s)

/-- One step leads to a state in which the four bytes at `p` are `v`. -/
def stores (p v : Word) (s : State) : Bool := nextWith (fun t => decide (word t p = v)) (step s)

/-! ### Well-formedness (R99): an ill-formed term for each check -/

theorem test_wf_refuses_c16_above : (Instr.ldi .r1 0x8000#32).wf = false := by decide
theorem test_wf_refuses_c16_below : (Instr.ld .r1 .r2 0xFFFF7FFF#32).wf = false := by decide
theorem test_wf_refuses_c12_above : (Instr.addi .r1 .r2 0x800#32).wf = false := by decide
theorem test_wf_refuses_c12_below : (Instr.addi .r1 .r2 0xFFFFF7FF#32).wf = false := by decide
theorem test_wf_refuses_c24_above : (Instr.jmp 0x800000#32).wf = false := by decide
theorem test_wf_refuses_c24_below : (Instr.swi 0xFF7FFFFF#32).wf = false := by decide
theorem test_wf_refuses_c5 : (Instr.shl .r1 .r2 32).wf = false := by decide
theorem test_wf_accepts_extremes :
    ((Instr.ldi .r1 0xFFFF8000#32).wf && (Instr.addi .r1 .r2 0x7FF#32).wf && (Instr.jmp 0xFF800000#32).wf &&
      (Instr.ror .r1 .r2 31).wf) = true := by
  decide

/-! ### Decoding (E1, E2): every constructor from its word -/
theorem test_decode_ld : decodeWord 0x00120004#32 = .ok (.ld .r1 .r2 4#32) := by decide
theorem test_decode_st : decodeWord 0x01120004#32 = .ok (.st .r1 .r2 4#32) := by decide
theorem test_decode_ldb : decodeWord 0x02120004#32 = .ok (.ldb .r1 .r2 4#32) := by decide
theorem test_decode_stb : decodeWord 0x03120004#32 = .ok (.stb .r1 .r2 4#32) := by decide
theorem test_decode_ldr : decodeWord 0x04123000#32 = .ok (.ldr .r1 .r2 .r3) := by decide
theorem test_decode_str : decodeWord 0x05123000#32 = .ok (.str .r1 .r2 .r3) := by decide
theorem test_decode_lbr : decodeWord 0x06123000#32 = .ok (.lbr .r1 .r2 .r3) := by decide
theorem test_decode_sbr : decodeWord 0x07123000#32 = .ok (.sbr .r1 .r2 .r3) := by decide
theorem test_decode_ldi : decodeWord 0x0810FFFE#32 = .ok (.ldi .r1 0xFFFFFFFE#32) := by decide
theorem test_decode_cmp : decodeWord 0x10230000#32 = .ok (.cmp .r2 .r3) := by decide
theorem test_decode_mov : decodeWord 0x12120000#32 = .ok (.mov .r1 .r2) := by decide
theorem test_decode_add : decodeWord 0x13123000#32 = .ok (.add .r1 .r2 .r3) := by decide
theorem test_decode_sub : decodeWord 0x14123000#32 = .ok (.sub .r1 .r2 .r3) := by decide
theorem test_decode_mul : decodeWord 0x15123000#32 = .ok (.mul .r1 .r2 .r3) := by decide
theorem test_decode_div : decodeWord 0x16123000#32 = .ok (.div .r1 .r2 .r3) := by decide
theorem test_decode_and : decodeWord 0x18123000#32 = .ok (.and .r1 .r2 .r3) := by decide
theorem test_decode_or : decodeWord 0x19123000#32 = .ok (.or .r1 .r2 .r3) := by decide
theorem test_decode_xor : decodeWord 0x1A123000#32 = .ok (.xor .r1 .r2 .r3) := by decide
theorem test_decode_addi : decodeWord 0x1B120FFF#32 = .ok (.addi .r1 .r2 0xFFFFFFFF#32) := by decide
theorem test_decode_rol : decodeWord 0x1C120008#32 = .ok (.rol .r1 .r2 8) := by decide
theorem test_decode_ror : decodeWord 0x1D120008#32 = .ok (.ror .r1 .r2 8) := by decide
theorem test_decode_shl : decodeWord 0x1E120004#32 = .ok (.shl .r1 .r2 4) := by decide
theorem test_decode_shr : decodeWord 0x1F120004#32 = .ok (.shr .r1 .r2 4) := by decide
theorem test_decode_jeq : decodeWord 0x20000010#32 = .ok (.jeq 0x10#32) := by decide
theorem test_decode_jne : decodeWord 0x21000010#32 = .ok (.jne 0x10#32) := by decide
theorem test_decode_jlt : decodeWord 0x22000010#32 = .ok (.jlt 0x10#32) := by decide
theorem test_decode_jgt : decodeWord 0x23000010#32 = .ok (.jgt 0x10#32) := by decide
theorem test_decode_jle : decodeWord 0x24FFFFF0#32 = .ok (.jle 0xFFFFFFF0#32) := by decide
theorem test_decode_jge : decodeWord 0x25000010#32 = .ok (.jge 0x10#32) := by decide
theorem test_decode_jmp : decodeWord 0x26FFFFFC#32 = .ok (.jmp 0xFFFFFFFC#32) := by decide
theorem test_decode_swi : decodeWord 0x2A000020#32 = .ok (.swi 0x20#32) := by decide
theorem test_decode_call : decodeWord 0x2B000008#32 = .ok (.call 8#32) := by decide
theorem test_decode_ret : decodeWord 0x2C000000#32 = .ok (.ret) := by decide
theorem test_decode_iret : decodeWord 0x2D000000#32 = .ok (.iret) := by decide
theorem test_decode_push : decodeWord 0x30E00000#32 = .ok (.push .r14) := by decide
theorem test_decode_pop : decodeWord 0x31E00000#32 = .ok (.pop .r14) := by decide
theorem test_decode_pushb : decodeWord 0x32100000#32 = .ok (.pushb .r1) := by decide
theorem test_decode_popb : decodeWord 0x33200000#32 = .ok (.popb .r2) := by decide

/-- Register fields at their extremes (E1). -/
theorem test_decode_register_extremes :
    decodeWord 0x13FF1000#32 = .ok (.add .r15 .r15 .r1) ∧ decodeWord 0x12000000#32 = .ok (.mov .r0 .r0) ∧
      decodeWord 0x08C000C1#32 = .ok (.ldi .r12 0xC1#32) ∧ decodeWord 0x08D00400#32 = .ok (.ldi .r13 0x400#32) := by
  decide

/-- Unused bits are ignored (E2). -/
theorem test_decode_ignored_bits :
    decodeWord 0x2CABCDEF#32 = .ok .ret ∧ decodeWord 0x1B12F001#32 = .ok (.addi .r1 .r2 1#32) ∧
      decodeWord 0x08150005#32 = .ok (.ldi .r1 5#32) ∧ decodeWord 0x1E120FE4#32 = .ok (.shl .r1 .r2 4) ∧
      decodeWord 0x1C120021#32 = .ok (.rol .r1 .r2 1) := by
  decide

/-- Words that spell nothing (E2). -/
theorem test_decode_refuses :
    decodeWord 0x09000000#32 = .error (.unassignedOp 0x09#8) ∧ decodeWord 0x11000000#32 = .error (.unassignedOp 0x11#8) ∧
      decodeWord 0x17123000#32 = .error (.unassignedOp 0x17#8) ∧ decodeWord 0x27000000#32 = .error (.unassignedOp 0x27#8) ∧
      decodeWord 0x2E000000#32 = .error (.unassignedOp 0x2E#8) ∧ decodeWord 0x34000000#32 = .error (.unassignedOp 0x34#8) ∧
      decodeWord 0xFFFFFFFF#32 = .error (.unassignedOp 0xFF#8) := by
  decide

theorem test_decode_bytes : decode [0x08#8, 0x10#8, 0x00#8, 0x07#8, 0xAA#8] = .ok (.ldi .r1 7#32, [0xAA#8]) := by
  decide

theorem test_decode_table_word : decodeTableWord 32 0x1B120FFF = some (.addi .r1 .r2 0xFFFFFFFF#32) := by decide

/-! ### The assembly text (R88, R95, R96) -/

theorem test_text_load : (Instr.ld .r1 .r2 0xFFFFFFFC#32).text = "LD R1, [R2-4]" := by decide
theorem test_text_index : (Instr.ldr .r8 .r6 .r7).text = "LDR R8, [R6+R7]" := by decide
theorem test_text_jump : (Instr.jle 0xFFFFFFF0#32).text = "JLE -16" := by decide

/-- The words of `LD R1, [100]`, `LDB R1, [100]` and `STB R1, [100]` (S1, S2), and of `ST R1, [R0+0x100]` (R112). -/
theorem test_short_operand_words :
    encode (ldShort .r1 100#32) = 0x00100064#32 ∧ encode (ldbShort .r1 100#32) = 0x02100064#32 ∧
      encode (stbShort .r1 100#32) = 0x03100064#32 ∧ encode (stShort .r1 0x100#32) = 0x01100100#32 := by
  decide

theorem test_short_operand_text :
    (ldShort .r1 100#32).shortText = "LD R1, [100]" ∧ (ldbShort .r1 100#32).shortText = "LDB R1, [100]" ∧
      (stbShort .r1 100#32).shortText = "STB R1, [100]" ∧ (Instr.ld .r1 .r2 4#32).shortText = "LD R1, [R2+4]" := by
  decide

/-- `LD R1, [100]` with bytes 100 to 103 = DE AD BE EF (S1). -/
theorem test_short_operand_loads :
    gives .r1 0xDEADBEEF#32 (poke 100#32 [0xDE#8, 0xAD#8, 0xBE#8, 0xEF#8] (at100 (encode (ldShort .r1 100#32)))) =
      true := by
  decide

theorem test_jump_constant : jumpConstant 0x18#32 0x0C#32 = 0xFFFFFFF0#32 := by decide

/-! ### One step per vector -/

/-! #### Load and store (L1) -/

theorem test_ld_unaligned : gives .r1 0x3456789A#32 (put [(.r2, 0x200#32)] (l1 0x00120001#32)) = true := by decide
theorem test_ld_unmapped :
    faultsWith (.memUnmapped 0x10000#32) (step (put [(.r2, 0x10000#32)] (l1 0x00120000#32))) = true := by
  decide
theorem test_st_word :
    stores 0x204#32 0xCAFEBABE#32 (put [(.r1, 0xCAFEBABE#32), (.r2, 0x200#32)] (l1 0x01120004#32)) = true := by
  decide
theorem test_st_r15_stores_next_address :
    stores 0x200#32 0x104#32 (put [(.r2, 0x200#32)] (l1 0x01F20000#32)) = true := by
  decide
theorem test_ldb_extends_with_zeros : gives .r1 0x9A#32 (put [(.r2, 0x200#32)] (l1 0x02120004#32)) = true := by decide
theorem test_stb_one_byte :
    stores 0x200#32 0x12BE5678#32 (put [(.r1, 0xCAFEBABE#32), (.r2, 0x200#32)] (l1 0x03120001#32)) = true := by
  decide
theorem test_ldr_index_wraps :
    gives .r1 0x9ABCDEF0#32 (put [(.r2, 0x208#32), (.r3, 0xFFFFFFFC#32)] (l1 0x04123000#32)) = true := by
  decide
theorem test_str_unaligned :
    stores 0x200#32 0x12340102#32 (put [(.r1, 0x01020304#32), (.r2, 0x200#32), (.r3, 0x2#32)] (l1 0x05123000#32)) = true := by
  decide
theorem test_lbr_byte : gives .r1 0xBC#32 (put [(.r2, 0x200#32), (.r3, 0x5#32)] (l1 0x06123000#32)) = true := by decide
theorem test_sbr_low_byte :
    stores 0x204#32 0x9ABCDEFF#32 (put [(.r1, 0x1FF#32), (.r2, 0x200#32), (.r3, 0x7#32)] (l1 0x07123000#32)) = true := by
  decide
theorem test_ldi_sign_extends : gives .r1 0xFFFF8000#32 (at100 0x08108000#32) = true := by decide
theorem test_ldi_r0_discarded : gives .r0 0x0#32 (at100 0x08000005#32) = true := by decide

/-! #### Arithmetic and logic (A1 to A5) -/

theorem test_cmp_less_signed :
    gives .r12 0xB00000C1#32 (put [(.r2, 0xFFFFFFFF#32), (.r3, 0x1#32), (.r12, 0x300000C1#32)] (at100 0x10230000#32)) = true := by
  decide
theorem test_cmp_equal_user_mode :
    gives .r12 0x40000000#32 (put [(.r2, 0x7#32), (.r3, 0x7#32), (.r12, 0x0#32)] (at100 0x10230000#32)) = true := by
  decide
theorem test_mov_r15_reads_next_address : gives .r1 0x104#32 (at100 0x121F0000#32) = true := by decide
theorem test_mov_to_r15_jumps : gives .r15 0x300#32 (put [(.r2, 0x300#32)] (at100 0x12F20000#32)) = true := by decide
theorem test_add_wraps :
    gives .r1 0x0#32 (put [(.r2, 0xFFFFFFFF#32), (.r3, 0x1#32)] (at100 0x13123000#32)) = true := by
  decide
theorem test_add_r15_jumps : gives .r15 0x10C#32 (put [(.r1, 0x8#32)] (at100 0x13FF1000#32)) = true := by decide
theorem test_sub_wraps :
    gives .r1 0xFFFFFFFF#32 (put [(.r2, 0x0#32), (.r3, 0x1#32)] (at100 0x14123000#32)) = true := by
  decide
theorem test_mul_low_word :
    gives .r1 0x34567800#32 (put [(.r2, 0x12345678#32), (.r3, 0x100#32)] (at100 0x15123000#32)) = true := by
  decide
theorem test_mul_negative :
    gives .r1 0xFFFFFFFA#32 (put [(.r2, 0xFFFFFFFE#32), (.r3, 0x3#32)] (at100 0x15123000#32)) = true := by
  decide
theorem test_div_truncates :
    gives .r1 0xFFFFFFFD#32 (put [(.r2, 0xFFFFFFF9#32), (.r3, 0x2#32)] (at100 0x16123000#32)) = true := by
  decide
theorem test_div_by_zero :
    faultsWith (.divideByZero 0x100#32) (step (put [(.r2, 0x5#32), (.r3, 0x0#32)] (at100 0x16123000#32))) = true := by
  decide
theorem test_and_bits :
    gives .r1 0x00F0F000#32 (put [(.r2, 0xF0F0FF00#32), (.r3, 0x0FF0F0F0#32)] (at100 0x18123000#32)) = true := by
  decide
theorem test_and_r12_drops_to_user_mode :
    gives .r12 0xC0#32 (put [(.r12, 0xC1#32), (.r1, 0xFFFFFFFE#32)] (at100 0x18CC1000#32)) = true := by
  decide
theorem test_or_bits :
    gives .r1 0xFFF0FFF0#32 (put [(.r2, 0xF0F0FF00#32), (.r3, 0x0FF0F0F0#32)] (at100 0x19123000#32)) = true := by
  decide
theorem test_xor_bits :
    gives .r1 0xFF000FF0#32 (put [(.r2, 0xF0F0FF00#32), (.r3, 0x0FF0F0F0#32)] (at100 0x1A123000#32)) = true := by
  decide
theorem test_addi_most_negative :
    gives .r1 0xFFFFF800#32 (put [(.r2, 0x0#32)] (at100 0x1B120800#32)) = true := by
  decide
theorem test_rol_31 : gives .r1 0xC0000000#32 (put [(.r2, 0x80000001#32)] (at100 0x1C12001F#32)) = true := by decide
theorem test_rol_8 : gives .r1 0x34567812#32 (put [(.r2, 0x12345678#32)] (at100 0x1C120008#32)) = true := by decide
theorem test_ror_1 : gives .r1 0xC0000000#32 (put [(.r2, 0x80000001#32)] (at100 0x1D120001#32)) = true := by decide
theorem test_ror_8 : gives .r1 0x78123456#32 (put [(.r2, 0x12345678#32)] (at100 0x1D120008#32)) = true := by decide
theorem test_shl_4 : gives .r1 0x23456780#32 (put [(.r2, 0x12345678#32)] (at100 0x1E120004#32)) = true := by decide
theorem test_shr_logical :
    gives .r1 0x08765432#32 (put [(.r2, 0x87654321#32)] (at100 0x1F120004#32)) = true := by
  decide
theorem test_shr_31 : gives .r1 0x1#32 (put [(.r2, 0x80000001#32)] (at100 0x1F12001F#32)) = true := by decide

/-! #### Jumps (J1 to J4) -/

theorem test_jeq_taken : gives .r15 0x114#32 (put [(.r12, 0xC0000001#32)] (at100 0x20000010#32)) = true := by decide
theorem test_jeq_not_taken : gives .r15 0x104#32 (put [(.r12, 0x80000001#32)] (at100 0x20000010#32)) = true := by decide
theorem test_jne_taken : gives .r15 0x114#32 (put [(.r12, 0x80000001#32)] (at100 0x21000010#32)) = true := by decide
theorem test_jlt_taken : gives .r15 0x114#32 (put [(.r12, 0x80000001#32)] (at100 0x22000010#32)) = true := by decide
theorem test_jlt_not_taken : gives .r15 0x104#32 (put [(.r12, 0xC0000001#32)] (at100 0x22000010#32)) = true := by decide
theorem test_jgt_taken : gives .r15 0x114#32 (put [(.r12, 0x1#32)] (at100 0x23000010#32)) = true := by decide
theorem test_jgt_not_taken : gives .r15 0x104#32 (put [(.r12, 0x40000001#32)] (at100 0x23000010#32)) = true := by decide
theorem test_jle_taken : gives .r15 0x114#32 (put [(.r12, 0x40000001#32)] (at100 0x24000010#32)) = true := by decide
theorem test_jle_not_taken : gives .r15 0x104#32 (put [(.r12, 0x1#32)] (at100 0x24000010#32)) = true := by decide
theorem test_jge_taken_with_both_flags :
    gives .r15 0x114#32 (put [(.r12, 0xC0000001#32)] (at100 0x25000010#32)) = true := by
  decide
theorem test_jge_not_taken : gives .r15 0x104#32 (put [(.r12, 0x80000001#32)] (at100 0x25000010#32)) = true := by decide
theorem test_jmp_largest_backward : gives .r15 0xFF800104#32 (at100 0x26800000#32) = true := by decide
theorem test_jmp_unaligned : gives .r15 0x107#32 (at100 0x26000003#32) = true := by decide
theorem test_call_links : gives .r14 0x104#32 (at100 0x2BFFFFF0#32) = true := by decide
theorem test_call_jumps : gives .r15 0xF4#32 (at100 0x2BFFFFF0#32) = true := by decide
theorem test_ret_jumps_to_link : gives .r15 0x10#32 (put [(.r14, 0x10#32)] (at100 0x2C000000#32)) = true := by decide
theorem test_swi_enters :
    nextWith (fun t => decide (t.pc = 0x20#32) && decide (t.regs.r14 = 0x104#32) && t.int &&
        decide (t.sw = 0xC0#32))
      (step (put [(.r12, 0xC0#32), (.r14, 0x5555#32)] (at100 0x2A000020#32))) = true := by
  decide
theorem test_swi_disabled :
    nextWith (fun t => decide (t.pc = 0x104#32) && decide (t.regs.r14 = 0x5555#32) && !t.int)
      (step (put [(.r12, 0x81#32), (.r14, 0x5555#32)] (at100 0x2A000020#32))) = true := by
  decide
theorem test_iret_returns :
    nextWith (fun t => decide (t.pc = 0xC#32) && !t.int)
      (step ((put [(.r14, 0xC#32)] (at100 0x2D000000#32)).setInt true)) = true := by
  decide
theorem test_hardware_interrupt_enters :
    nextWith (fun t => decide (t.pc = 0x20#32) && decide (t.regs.r14 = 0xC#32) && t.int && decide (t.sw = 0x80#32))
      (step ((put [(.r12, 0x80#32), (.r15, 0xC#32)] State.reset).setLine [some 0x20#32])) = true := by
  decide
theorem test_hardware_interrupt_disabled :
    nextWith (fun t => decide (t.pc = 0x10#32) && !t.int && decide (t.line = []))
      (step ((put [(.r12, 0x1#32), (.r15, 0xC#32)] State.reset).setLine [some 0x20#32])) = true := by
  decide

/-! #### Stack (K1) -/

theorem test_push_r13_decremented :
    stores 0x3FC#32 0x3FC#32 (put [(.r13, 0x400#32)] (at100 0x30D00000#32)) = true := by
  decide
theorem test_push_unmapped :
    faultsWith (.memUnmapped 0xFFFFFFFC#32) (step (put [(.r13, 0x0#32), (.r1, 0xAABBCCDD#32)] (at100 0x30100000#32))) = true := by
  decide
theorem test_pop_r13 :
    gives .r13 0x504#32 (poke 0x3FC#32 [0#8, 0#8, 5#8, 0#8] (put [(.r13, 0x3FC#32)] (at100 0x31D00000#32))) = true := by
  decide
theorem test_pop_r12_user_mode :
    faultsWith (.userWriteSW 0x100#32) (step (put [(.r13, 0x3FC#32), (.r12, 0x0#32)] (at100 0x31C00000#32))) = true := by
  decide
theorem test_pushb_r13_decremented :
    stores 0x3FC#32 0xFF#32 (put [(.r13, 0x400#32)] (at100 0x32D00000#32)) = true := by
  decide
theorem test_popb_extends_with_zeros :
    gives .r2 0xF8#32 (poke 0x3FF#32 [0xF8#8] (put [(.r13, 0x3FF#32)] (at100 0x33200000#32))) = true := by
  decide
theorem test_popb_r13 :
    gives .r13 0x21#32 (poke 0x3FF#32 [0x20#8] (put [(.r13, 0x3FF#32)] (at100 0x33D00000#32))) = true := by
  decide

/-! #### Fetch and unassigned opcodes (E2, J2) -/

theorem test_unassigned_op :
    faultsWith (.illegalInstruction 0x100#32 0x09000000#32) (step (at100 0x09000000#32)) = true := by
  decide
theorem test_fetch_across_the_end :
    faultsWith (.memUnmapped 0x10000#32) (step (State.reset.setPc 0xFFFE#32)) = true := by
  decide
theorem test_fetch_unaligned :
    nextWith (fun t => decide (t.pc = 0x106#32) && decide (t.regs.r1 = 7#32))
      (step ((State.reset.setPc 0x102#32).placeWord 0x08100007#32)) = true := by
  decide

/-! ### Reset and the host's placing of a word -/

theorem test_reset_canonical : State.reset.mem.wf := by decide

theorem test_with_fetch_word : gives .r1 5#32 (State.reset.withFetchWord 32 0x08100005) = true := by decide

/-- A word is placed where the map backs no byte, and the request that would be taken is not presented. -/
theorem test_with_fetch_word_unbacked :
    gives .r1 5#32 (((put [(.r12, 0x80#32), (.r15, 0xFFFFFFFE#32)] State.reset).setLine [some 0x20#32]).withFetchWord 32
      0x08100005) = true := by
  decide

/-! ### Witnesses

For every statement with hypotheses, concrete states and operands that meet them, at boundary values of each clause. -/

/-- Super mode, the executing instruction at 0x100, SP at 0x400, R2 = 0x10000 (not backed), R3 = 0xFFFC (the last
backed word), R4 = 0xFFFE (a word whose third byte is not backed), R5 = 0xFFFF (the last backed byte). -/
def superState : State :=
  put [(.r2, 0x10000#32), (.r3, 0xFFFC#32), (.r4, 0xFFFE#32), (.r5, 0xFFFF#32), (.r13, 0x400#32), (.r14, 0x10#32),
    (.r15, 0x104#32)] State.reset

/-- The same in user mode. -/
def userState : State := put [(.r12, 0#32)] superState

/-- The same with I = T = 1. -/
def openState : State := put [(.r12, 0xC1#32)] superState

/-- A word at 0x100 that the next step runs, in a state `s` with `pc` = 0x100. -/
def about (w : Word) (s : State) : State := (s.setPc 0x100#32).placeWord w

theorem witness_WordLoads :
    opField 0x00120004#32 = 0x00#8 ∧ opField 0x04123000#32 = 0x04#8 ∧ userState.superMode = false ∧
      superState.superMode = true ∧ backedBytes superState.mem (superState.readReg .r3 + 0#32) 4 ∧
      backedBytes superState.mem (superState.readReg .r3 + superState.readReg .r0) 4 ∧
      firstUnbackedByte superState.mem (superState.readReg .r4 + 0#32) 4 0x10000#32 ∧
      firstUnbackedByte superState.mem (superState.readReg .r2 + superState.readReg .r0) 4 0x10000#32 := by
  decide

theorem witness_ByteLoads :
    opField 0x02120004#32 = 0x02#8 ∧ opField 0x06123000#32 = 0x06#8 ∧ userState.superMode = false ∧
      superState.superMode = true ∧ backedBytes superState.mem (superState.readReg .r5 + 0#32) 1 ∧
      backedBytes superState.mem (superState.readReg .r5 + superState.readReg .r0) 1 ∧
      firstUnbackedByte superState.mem (superState.readReg .r5 + 1#32) 1 0x10000#32 ∧
      firstUnbackedByte superState.mem (superState.readReg .r2 + superState.readReg .r0) 1 0x10000#32 := by
  decide

theorem witness_WordStores :
    opField 0x01120004#32 = 0x01#8 ∧ opField 0x05123000#32 = 0x05#8 ∧
      backedBytes superState.mem (superState.readReg .r3 + 0#32) 4 ∧
      backedBytes superState.mem (superState.readReg .r3 + superState.readReg .r0) 4 ∧
      firstUnbackedByte superState.mem (superState.readReg .r4 + 0#32) 4 0x10000#32 ∧
      firstUnbackedByte superState.mem (superState.readReg .r2 + superState.readReg .r0) 4 0x10000#32 := by
  decide

theorem witness_ByteStores :
    opField 0x03120004#32 = 0x03#8 ∧ opField 0x07123000#32 = 0x07#8 ∧
      backedBytes superState.mem (superState.readReg .r5 + 0#32) 1 ∧
      backedBytes superState.mem (superState.readReg .r5 + superState.readReg .r0) 1 ∧
      firstUnbackedByte superState.mem (superState.readReg .r5 + 1#32) 1 0x10000#32 ∧
      firstUnbackedByte superState.mem (superState.readReg .r2 + superState.readReg .r0) 1 0x10000#32 := by
  decide

/-- The two cases of `writesReg`, here and below: R12 in user mode, and R12 in super mode or another register. -/
theorem witness_LoadConstant :
    opField 0x0810FFFE#32 = 0x08#8 ∧ userState.superMode = false ∧ ¬(Reg.r12 = .r12 ∧ superState.superMode = false) ∧
      ¬(Reg.r1 = .r12 ∧ userState.superMode = false) := by
  decide

theorem witness_CompareSetsNAndZ : opField 0x10230000#32 = 0x10#8 ∧ (1 ≠ Config.swN ∧ 1 ≠ Config.swZ) := by decide

theorem witness_MoveCopiesRegister :
    opField 0x12120000#32 = 0x12#8 ∧ userState.superMode = false ∧ ¬(Reg.r12 = .r12 ∧ superState.superMode = false) := by
  decide

theorem witness_AddAndSubWrap :
    opField 0x13123000#32 = 0x13#8 ∧ opField 0x14123000#32 = 0x14#8 ∧ userState.superMode = false ∧
      ¬(Reg.r12 = .r12 ∧ superState.superMode = false) := by
  decide

theorem witness_MultiplyKeepsLowWord :
    opField 0x15123000#32 = 0x15#8 ∧ userState.superMode = false ∧ ¬(Reg.r12 = .r12 ∧ superState.superMode = false) := by
  decide

theorem witness_DivideTruncates :
    opField 0x16123000#32 = 0x16#8 ∧ superState.readReg .r2 ≠ 0#32 ∧ superState.readReg .r1 = 0#32 ∧
      (userState.readReg .r1 = 0#32 ∧ Reg.r12 = .r12 ∧ userState.superMode = false) ∧
      ¬(Reg.r12 = .r12 ∧ superState.superMode = false) := by
  decide

theorem witness_LogicIsBitwise :
    opField 0x18123000#32 = 0x18#8 ∧ opField 0x19123000#32 = 0x19#8 ∧ opField 0x1A123000#32 = 0x1A#8 ∧
      userState.superMode = false ∧ ¬(Reg.r12 = .r12 ∧ superState.superMode = false) := by
  decide

theorem witness_AddConstantWraps :
    opField 0x1B120FFF#32 = 0x1B#8 ∧ userState.superMode = false ∧ ¬(Reg.r12 = .r12 ∧ superState.superMode = false) := by
  decide

/-- Counts 0 and 31, the ends of the range. -/
theorem witness_RotatesMoveEveryBit :
    opField 0x1C120008#32 = 0x1C#8 ∧ opField 0x1D120008#32 = 0x1D#8 ∧ 0 < 32 ∧ 31 < 32 ∧
      userState.superMode = false ∧ ¬(Reg.r12 = .r12 ∧ superState.superMode = false) := by
  decide

/-- Counts 0 and 31, the ends of the range. -/
theorem witness_ShiftsAreLogical : opField 0x1E120004#32 = 0x1E#8 ∧ opField 0x1F120004#32 = 0x1F#8 ∧ 0 < 32 ∧ 31 < 32 := by
  decide

theorem witness_ConditionalJumpsFollowTable :
    opField 0x20000010#32 = 0x20#8 ∧ opField 0x21000010#32 = 0x21#8 ∧ opField 0x22000010#32 = 0x22#8 ∧
      opField 0x23000010#32 = 0x23#8 ∧ opField 0x24FFFFF0#32 = 0x24#8 ∧ opField 0x25000010#32 = 0x25#8 := by
  decide

theorem witness_JumpIsRelative : opField 0x26FFFFFC#32 = 0x26#8 := by decide
theorem witness_CallLinksAndJumps : opField 0x2B000008#32 = 0x2B#8 := by decide
theorem witness_ReturnJumpsToLink : opField 0x2CABCDEF#32 = 0x2C#8 := by decide

theorem witness_ReturnFromInterruptClearsInt :
    opField 0x2D000000#32 = 0x2D#8 ∧ (openState.setLine [some 0x20#32]).flagI = true ∧
      (openState.setLine [some 0x20#32]).line.head? = some (some 0x20#32) := by
  decide

theorem witness_SoftwareInterruptEntry :
    opField 0x2A000020#32 = 0x2A#8 ∧ (openState.flagI = true ∧ openState.flagT = true ∧ openState.int = false) ∧
      (put [(.r12, 0x41#32)] superState).flagI = false ∧ (put [(.r12, 0x81#32)] superState).flagT = false ∧
      (openState.setInt true).int = true := by
  decide

/-- SP = 0x400 pushes to the backed word 0x3FC, SP = 0x10002 to one whose third byte is not backed. -/
theorem witness_PushWordStoresBelow :
    opField 0x30E00000#32 = 0x30#8 ∧ 0x3FC#32 = superState.readReg .r13 - 4#32 ∧ backedBytes superState.mem 0x3FC#32 4 ∧
      0xFFFE#32 = (put [(.r13, 0x10002#32)] superState).readReg .r13 - 4#32 ∧
      firstUnbackedByte superState.mem 0xFFFE#32 4 0x10000#32 := by
  decide

theorem witness_PushByteStoresBelow :
    opField 0x32100000#32 = 0x32#8 ∧ 0x3FF#32 = superState.readReg .r13 - 1#32 ∧ backedBytes superState.mem 0x3FF#32 1 ∧
      0xFFFFFFFF#32 = (put [(.r13, 0#32)] superState).readReg .r13 - 1#32 ∧
      firstUnbackedByte superState.mem 0xFFFFFFFF#32 1 0xFFFFFFFF#32 := by
  decide

theorem witness_PopWordLoadsAndMovesSp :
    opField 0x31E00000#32 = 0x31#8 ∧ 0#32 = wordAt superState.mem (superState.readReg .r13) ∧
      userState.superMode = false ∧ ¬(Reg.r12 = .r12 ∧ superState.superMode = false) ∧
      backedBytes superState.mem (superState.readReg .r13) 4 ∧
      firstUnbackedByte superState.mem ((put [(.r13, 0xFFFE#32)] superState).readReg .r13) 4 0x10000#32 := by
  decide

theorem witness_PopByteLoadsAndMovesSp :
    opField 0x33200000#32 = 0x33#8 ∧ 0#32 = (0#24 ++ superState.mem.byteAt (superState.readReg .r13) : Word) ∧
      userState.superMode = false ∧ ¬(Reg.r12 = .r12 ∧ superState.superMode = false) ∧
      backedBytes superState.mem (superState.readReg .r13) 1 ∧
      firstUnbackedByte superState.mem ((put [(.r13, 0x10000#32)] superState).readReg .r13) 1 0x10000#32 := by
  decide

theorem witness_DecodeInvertsEncode :
    (Instr.ldi .r15 0xFFFF8000#32).wf = true ∧ (Instr.addi .r1 .r2 0x7FF#32).wf = true ∧
      (Instr.swi 0xFF800000#32).wf = true ∧ (Instr.rol .r1 .r2 31).wf = true := by
  decide

theorem witness_DecodedIsWellFormed : decodeWord 0x1C12FFFF#32 = .ok (.rol .r1 .r2 31) := by decide

/-- Two words for one instruction. -/
theorem witness_OnlyUnusedBitsAreIgnored :
    decodeWord 0x1E120FE4#32 = .ok (.shl .r1 .r2 4) ∧ decodeWord 0x1E120004#32 = .ok (.shl .r1 .r2 4) := by
  decide

theorem witness_UnassignedOpcodesStop :
    (about 0x09000000#32 superState).noEntry ∧
      backedBytes (about 0x09000000#32 superState).mem (about 0x09000000#32 superState).pc 4 ∧
      unassignedOp (opField (wordAt (about 0x09000000#32 superState).mem (about 0x09000000#32 superState).pc)) = true := by
  decide

/-- No entry for each of its four reasons, a fetch that is backed and one that is not. -/
theorem witness_StepRunsDecodedInstruction :
    (superState.setLine [some 0x20#32]).noEntry ∧ ((openState.setInt true).setLine [some 0x20#32]).noEntry ∧
      (openState.setLine []).noEntry ∧ (openState.setLine [none, some 0x20#32]).noEntry ∧
      firstUnbackedByte superState.mem (superState.setPc 0xFFFE#32).pc 4 0x10000#32 ∧
      backedBytes (about 0x2C000000#32 superState).mem (about 0x2C000000#32 superState).pc 4 ∧
      decodeWord (wordAt (about 0x2C000000#32 superState).mem (about 0x2C000000#32 superState).pc) = .ok .ret := by
  decide

theorem witness_HardwareInterruptEntry :
    (openState.setLine [some 0x20#32]).flagI = true ∧ (openState.setLine [some 0x20#32]).int = false ∧
      (openState.setLine [some 0x20#32]).line.head? = some (some 0x20#32) := by
  decide

theorem witness_RefusedRequestIsIgnored :
    (superState.setLine [some 0x20#32]).line = some 0x20#32 :: [] ∧ (superState.setLine [some 0x20#32]).flagI = false ∧
      ((openState.setInt true).setLine [some 0x20#32]).line = some 0x20#32 :: [] ∧
      ((openState.setInt true).setLine [some 0x20#32]).int = true := by
  decide

/-- A handler that runs SWI with a request waiting. -/
def handlerState : State := ((about 0x2A000020#32 openState).setInt true).setLine [some 0x20#32]

theorem witness_InterruptsDoNotNest :
    handlerState.int = true ∧ (∃ t, step handlerState = .next t) ∧ handlerState.runs (.swi 0x20#32) :=
  ⟨rfl, ⟨_, rfl⟩, rfl, 0x2A000020#32, by decide, by decide⟩

/-- INT written by a hardware interrupt, by SWI and by IRET. -/
theorem witness_IntWrittenOnlyByEntryAndReturn :
    (∃ t, step (openState.setLine [some 0x20#32]) = .next t ∧ t.int ≠ (openState.setLine [some 0x20#32]).int) ∧
      (∃ t, step (about 0x2A000020#32 openState) = .next t ∧ t.int ≠ (about 0x2A000020#32 openState).int) ∧
      ∃ t, step ((about 0x2D000000#32 superState).setInt true) = .next t ∧
        t.int ≠ ((about 0x2D000000#32 superState).setInt true).int :=
  ⟨⟨_, rfl, by decide⟩, ⟨_, rfl, by decide⟩, ⟨_, rfl, by decide⟩⟩

theorem witness_ReturnsResumeWhereLeft :
    (∃ t u : State, exec (.call 8#32) superState = .next t ∧ u.readReg .r14 = t.readReg .r14) ∧
      ((openState.setLine [some 0x20#32]).takenRequest = some 0x20#32 ∧
        ∃ t u : State, step (openState.setLine [some 0x20#32]) = .next t ∧ u.readReg .r14 = t.readReg .r14) ∧
      openState.swiEnabled = true ∧
      ∃ t u : State, exec (.swi 0x20#32) openState = .next t ∧ u.readReg .r14 = t.readReg .r14 :=
  ⟨⟨_, _, rfl, rfl⟩, ⟨by decide, _, _, rfl, rfl⟩, by decide, _, _, rfl, rfl⟩

theorem witness_UserModeMayNotSetSw :
    userState.superMode = false ∧ (Instr.pop .r12).destination = some .r12 ∧
      ∃ p, exec (.ldi .r12 0xC1#32) userState = .fault (.userWriteSW p) :=
  ⟨by decide, rfl, _, rfl⟩

/-- Super mode left by `LDI R12, 0`, a step in user mode, and a constant with M = 0. -/
theorem witness_UserModeIsOneWay :
    (∃ t, step (about 0x08C00000#32 superState) = .next t ∧ t.superMode ≠ (about 0x08C00000#32 superState).superMode) ∧
      (∃ t, step (about 0x2A000020#32 userState) = .next t ∧ (about 0x2A000020#32 userState).superMode = false) ∧
      superState.superMode = true ∧ (0xC0#32).getLsbD Config.swM = false :=
  ⟨⟨_, rfl, by decide⟩, ⟨_, rfl, by decide⟩, by decide, by decide⟩

/-- Bit 7 written by LDI R12, bit 31 by CMP in user mode. -/
theorem witness_StatusWordWriters :
    (∃ t, step (about 0x08C000C1#32 superState) = .next t ∧
        t.sw.getLsbD 7 ≠ (about 0x08C000C1#32 superState).sw.getLsbD 7) ∧
      ∃ t, step (about 0x10020000#32 userState) = .next t ∧
        t.sw.getLsbD 31 ≠ (about 0x10020000#32 userState).sw.getLsbD 31 :=
  ⟨⟨_, rfl, by decide⟩, ⟨_, rfl, by decide⟩⟩

/-- `PUSH R14` on canonical memory. -/
theorem witness_StepKeepsMemoryCanonical :
    (about 0x30E00000#32 superState).mem.wf ∧ ∃ t, step (about 0x30E00000#32 superState) = .next t :=
  ⟨by decide, _, rfl⟩

theorem witness_OnlyStoresChangeMemory :
    ∃ t, step (about 0x30E00000#32 superState) = .next t ∧ t.mem ≠ (about 0x30E00000#32 superState).mem :=
  ⟨_, rfl, by decide⟩

theorem witness_MixedWidthAccess :
    (Reg.r3 ≠ .r15 ∧ Reg.r6 ≠ .r0 ∧ Reg.r6 ≠ .r12 ∧ 0 < 4 ∧ 3 < 4) ∧
      (∃ t, exec (.st .r14 .r3 0#32) superState = .next t) ∧
      backedBytes superState.mem (superState.readReg .r3 + 0#32) 4 ∧
      ∃ t, exec (.stb .r14 .r3 0#32) superState = .next t :=
  ⟨by decide, ⟨_, rfl⟩, by decide, _, rfl⟩

/-- The word of `RET` stored at the address after the ST. -/
theorem witness_StoreSeenByNextFetch :
    (∃ t, exec (.st .r1 .r0 0x104#32) (put [(.r1, 0x2C000000#32)] superState) = .next t) ∧
      (put [(.r1, 0x2C000000#32)] superState).readReg .r0 + 0x104#32 = (put [(.r1, 0x2C000000#32)] superState).pc ∧
      (put [(.r1, 0x2C000000#32)] superState).noEntry ∧
      decodeWord ((put [(.r1, 0x2C000000#32)] superState).readReg .r1) = .ok .ret :=
  ⟨⟨_, rfl⟩, by decide, by decide, by decide⟩

theorem witness_PopUndoesPush :
    Reg.r14 ≠ .r13 ∧ Reg.r6 ≠ .r0 ∧ Reg.r6 ≠ .r12 ∧ Reg.r6 ≠ .r13 ∧ ∃ t, exec (.push .r14) superState = .next t :=
  ⟨by decide, by decide, by decide, by decide, _, rfl⟩

/-- Each of the four faults. -/
theorem witness_FaultsHaveTheirCause :
    (∃ f, step (superState.setPc 0xFFFE#32) = .fault f) ∧ (∃ f, step (about 0x09000000#32 superState) = .fault f) ∧
      (∃ f, step (about 0x08C00000#32 userState) = .fault f) ∧ ∃ f, step (about 0x16100000#32 superState) = .fault f :=
  ⟨⟨_, rfl⟩, ⟨_, rfl⟩, ⟨_, rfl⟩, _, rfl⟩

theorem witness_PcStaysAdvanced :
    (∃ t, exec (.cmp .r1 .r2) superState = .next t) ∧ (Instr.cmp .r1 .r2).jumps = false ∧
      (Instr.cmp .r1 .r2).destination ≠ some .r15 :=
  ⟨⟨_, rfl⟩, rfl, by decide⟩

theorem witness_RemainderByDivMulSub : superState.readReg .r2 ≠ 0#32 := by decide

theorem witness_RotatesUndoEachOther :
    (0 < 32 ∧ 31 < 32 ∧ Reg.r1 ≠ .r0 ∧ Reg.r1 ≠ .r12 ∧ Reg.r1 ≠ .r15) ∧ (1 ≤ 1 ∧ 1 ≤ 31) ∧ 1 ≤ 31 ∧ 31 ≤ 31 := by
  decide

/-- `JMP -4` with I = 0 and a request, with INT = 1, and with I = 1 and nothing presented. -/
theorem witness_CompletedRunStays :
    ((about 0x26FFFFFC#32 superState).setLine [some 0x20#32]).completed ∧
      ((about 0x26FFFFFC#32 openState).setInt true).completed ∧
      ((about 0x26FFFFFC#32 openState).setLine [none]).completed :=
  ⟨⟨by decide, by decide, .inl (by decide)⟩, ⟨by decide, by decide, .inr (.inl (by decide))⟩,
    by decide, by decide, .inr (.inr (by simp))⟩

/-- The all-zero word with address 0 backed, and with nothing backed but the word itself. -/
theorem witness_ZeroWordOnlyAdvances :
    ((about 0#32 superState).noEntry ∧ backedBytes (about 0#32 superState).mem (about 0#32 superState).pc 4 ∧
        wordAt (about 0#32 superState).mem (about 0#32 superState).pc = 0#32 ∧
        backedBytes (about 0#32 superState).mem 0#32 4) ∧
      (about 0#32 (superState.setMem ⟨[], []⟩)).noEntry ∧
      backedBytes (about 0#32 (superState.setMem ⟨[], []⟩)).mem 0x100#32 4 ∧
      firstUnbackedByte (about 0#32 (superState.setMem ⟨[], []⟩)).mem 0#32 4 0#32 := by
  decide

theorem witness_FirstStepRunsResetPc :
    backedBytes State.reset.mem 0#32 4 ∧ decodeWord (wordAt State.reset.mem 0#32) = .ok (.ld .r0 .r0 0#32) := by
  decide

theorem witness_PlacedWordRunsNext :
    0x2C000000 < 2 ^ 32 ∧ decodeWord (BitVec.ofNat 32 0x2C000000) = .ok .ret ∧ superState.mem.wf ∧
      ∀ k < 4, (0x200#32 : Word) ≠ superState.pc + BitVec.ofNat 32 k := by
  decide

end Sys2Proof.Tests
end

/-! SUPPORT. The fetch and the step of a state that takes no hardware interrupt, in the terms of the statements:
`backedBytes`, `firstUnbackedByte`, `wordAt`, `State.noEntry` and `State.runs` (00_scope.md R9, 20_memory.md R55). -/

namespace Sys2Proof.Machine

/-! ### Words in memory -/

/-- The four addresses of a word access are `p + k` for `k` below 4 (R51, R54). -/
theorem wordAddrs_eq_map_range (p : Word) : wordAddrs p = (List.range 4).map fun k => p + BitVec.ofNat 32 k := by
  simp [wordAddrs, List.range_succ]

theorem Memory.forall_wordAddrs_isBacked {m : Memory} {p : Word} :
    (∀ x ∈ wordAddrs p, m.isBacked x = true) ↔ backedBytes m p 4 := by
  simp [wordAddrs_eq_map_range]

/-- The address a word access reports is the first of its four that is not backed (R55, R56). -/
theorem Memory.firstUnbacked_wordAddrs {m : Memory} {p x : Word} :
    m.firstUnbacked (wordAddrs p) = some x ↔ firstUnbackedByte m p 4 x := by
  simp only [Memory.firstUnbacked, wordAddrs_eq_map_range, List.find?_map, Option.map_eq_some_iff,
    List.find?_range_eq_some, firstUnbackedByte, Function.comp_apply, List.mem_range, Bool.not_not,
    Bool.not_eq_true']
  constructor
  · rintro ⟨k, ⟨hk, hlt, hbefore⟩, rfl⟩
    exact ⟨k, hlt, rfl, hk, hbefore⟩
  · rintro ⟨k, hlt, rfl, hk, hbefore⟩
    exact ⟨k, ⟨hk, hlt, hbefore⟩, rfl⟩

theorem Memory.readWord_of_backedBytes {m : Memory} {p : Word} (h : backedBytes m p 4) :
    m.readWord p = .ok (wordAt m p) :=
  Memory.readWord_eq_ok.2 ⟨Memory.forall_wordAddrs_isBacked.2 h, rfl⟩

theorem Memory.readWord_of_firstUnbackedByte {m : Memory} {p x : Word} (h : firstUnbackedByte m p 4 x) :
    m.readWord p = .error (.memUnmapped x) :=
  Memory.readWord_eq_error.2 ⟨x, Memory.firstUnbacked_wordAddrs.2 h, rfl⟩

/-! ### The step that takes no interrupt -/

/-- A step that runs `i` is `exec i` with the boundary passed and `pc` advanced (R9). -/
theorem step_of_runs {s : State} {i : Instr} (h : s.runs i) : step s = exec i s.passBoundary.advance := by
  obtain ⟨hnone, ir, hfetch, hdecode⟩ := h
  simp [step, runInstruction, hnone, hfetch, hdecode]

theorem State.runs_of_backedBytes {s : State} {i : Instr} (hs : s.noEntry) (hb : backedBytes s.mem s.pc 4)
    (hd : decodeWord (wordAt s.mem s.pc) = .ok i) : s.runs i :=
  ⟨State.takenRequest_eq_none.2 hs, _, Memory.readWord_of_backedBytes hb, hd⟩

/-- A step that takes no interrupt faults where its fetch does (R53, R191). -/
theorem step_of_firstUnbackedByte {s : State} {x : Word} (hs : s.noEntry) (hx : firstUnbackedByte s.mem s.pc 4 x) :
    step s = .fault (.memUnmapped x) :=
  step_eq_fault.2 ⟨State.takenRequest_eq_none.2 hs, .inl (Memory.readWord_of_firstUnbackedByte hx)⟩

/-- Settles O31: the fetch faults, or it gives the word at `pc` and the step runs what that word decodes to. -/
theorem stepRunsDecodedInstruction : Obligations.StepRunsDecodedInstruction := by
  intro s hs
  exact ⟨fun x hx => step_of_firstUnbackedByte hs hx,
    fun hb i hd => step_of_runs (State.runs_of_backedBytes hs hb hd)⟩

end Sys2Proof.Machine

/-! SUPPORT. What the host's placing of a word does and what it leaves unchanged (assumption 6). -/

namespace Sys2Proof.Machine

/-! ### Placing a byte -/

/-- Placing a byte makes its address backed and leaves the map as it is elsewhere. -/
theorem Memory.isBacked_place (m : Memory) (a x : Word) (v : Byte) :
    (m.place a v).isBacked x = (decide (x = a) || m.isBacked x) := by
  unfold Memory.place
  split
  · next ha =>
    by_cases hx : x = a
    · simp [hx, ha]
    · simp [hx]
  · have hcontains : (⟨a.toNat, 1⟩ : Region).contains x.toNat = decide (x = a) := by
      rw [Region.contains, ← Bool.decide_and, decide_eq_decide, ← BitVec.toNat_inj]
      dsimp only
      omega
    simp [Memory.isBacked, hcontains]

/-- Read after placing: the placed address reads as placed, every other one as before. -/
theorem Memory.byteAt_place (m : Memory) (a x : Word) (v : Byte) :
    (m.place a v).byteAt x = if x = a then v else m.byteAt x := by
  unfold Memory.place
  split
  · exact Memory.byteAt_setByte m a x v
  · simp [Memory.byteAt, lookupCell_writeCell, BitVec.toNat_inj]

/-! ### Placing a word in memory -/

/-- The memory of `State.placeWord`: the four bytes of `w` placed at `p`, the most significant one first (R50). -/
def Memory.placeWord (m : Memory) (p w : Word) : Memory :=
  (((m.place p (w.extractLsb' 24 8)).place (p + 1#32) (w.extractLsb' 16 8)).place (p + 2#32)
    (w.extractLsb' 8 8)).place (p + 3#32) (w.extractLsb' 0 8)

theorem Memory.wf_placeWord {m : Memory} (p w : Word) (h : m.wf) : (m.placeWord p w).wf :=
  Memory.wf_place _ _ (Memory.wf_place _ _ (Memory.wf_place _ _ (Memory.wf_place _ _ h)))

theorem Memory.isBacked_placeWord (m : Memory) (p w x : Word) :
    (m.placeWord p w).isBacked x = (decide (x ∈ wordAddrs p) || m.isBacked x) := by
  simp only [Memory.placeWord, Memory.isBacked_place, wordAddrs, List.mem_cons, List.not_mem_nil, or_false,
    Bool.decide_or]
  ac_rfl

theorem Memory.backedBytes_placeWord (m : Memory) (p w : Word) : backedBytes (m.placeWord p w) p 4 :=
  Memory.forall_wordAddrs_isBacked.1 fun x hx => by simp [Memory.isBacked_placeWord, hx]

/-- The bytes of memory after a word is placed at `p`, as after a store of it (`Memory.byteAt_putWord`). -/
theorem Memory.byteAt_placeWord (m : Memory) (p w x : Word) :
    (m.placeWord p w).byteAt x = (m.putWord p w).byteAt x := by
  simp [Memory.placeWord, Memory.byteAt_place, Memory.byteAt_putWord]

/-- A word put at `p` reads back from `p` (R50, R55). -/
theorem Memory.wordAt_putWord (m : Memory) (p w : Word) : wordAt (m.putWord p w) p = w := by
  conv_rhs => rw [← bigEndian_bytes w]
  simp [wordAt, bigEndian, Memory.byteAt_putWord]

theorem Memory.wordAt_placeWord (m : Memory) (p w : Word) : wordAt (m.placeWord p w) p = w := by
  conv_rhs => rw [← Memory.wordAt_putWord m p w]
  simp only [wordAt, Memory.byteAt_placeWord]

/-- Away from the four addresses of the word, placing it changes no byte and backs no address. -/
theorem Memory.placeWord_frame (m : Memory) {p x : Word} (w : Word) (hx : x ∉ wordAddrs p) :
    (m.placeWord p w).byteAt x = m.byteAt x ∧ (m.placeWord p w).isBacked x = m.isBacked x := by
  refine ⟨?_, by simp [Memory.isBacked_placeWord, hx]⟩
  simp only [wordAddrs, List.mem_cons, List.not_mem_nil, or_false, not_or] at hx
  simp [Memory.byteAt_placeWord, Memory.byteAt_putWord, hx]

/-! ### Placing a word in a state -/

section PlaceWord

variable (s : State) (w : Word)

/-- Placing a word changes memory and, of what is presented, only the entry of this boundary. -/
theorem State.placeWord_eq :
    ∃ l : List (Option Word), l.tail = s.line.tail ∧ s.placeWord w = (s.setMem (s.mem.placeWord s.pc w)).setLine l := by
  unfold State.placeWord
  cases s.takenRequest with
  | none => exact ⟨s.line, rfl, rfl⟩
  | some addr => exact ⟨none :: s.line.tail, rfl, rfl⟩

@[simp] theorem State.placeWord_mem : (s.placeWord w).mem = s.mem.placeWord s.pc w := by
  obtain ⟨l, -, h⟩ := s.placeWord_eq w
  simp [h]

@[simp] theorem State.placeWord_pc : (s.placeWord w).pc = s.pc := by
  obtain ⟨l, -, h⟩ := s.placeWord_eq w
  simp [h]

@[simp] theorem State.placeWord_int : (s.placeWord w).int = s.int := by
  obtain ⟨l, -, h⟩ := s.placeWord_eq w
  simp [h]

@[simp] theorem State.placeWord_line_tail : (s.placeWord w).line.tail = s.line.tail := by
  obtain ⟨l, hl, h⟩ := s.placeWord_eq w
  simp [h, hl]

@[simp] theorem State.readReg_placeWord (r : Reg) : (s.placeWord w).readReg r = s.readReg r := by
  obtain ⟨l, -, h⟩ := s.placeWord_eq w
  simp [h]

/-- No hardware interrupt is taken before the placed word: a request that would be is not presented. -/
theorem State.noEntry_placeWord : (s.placeWord w).noEntry := by
  rw [← State.takenRequest_eq_none]
  unfold State.placeWord
  cases h : s.takenRequest with
  | none => exact h
  | some addr => exact State.takenRequest_eq_none.2 (.inr (.inr (.inr rfl)))

/-- The step after a word is placed runs the instruction the word decodes to (R9). -/
theorem State.runs_placeWord {i : Instr} (hd : decodeWord w = .ok i) : (s.placeWord w).runs i := by
  refine State.runs_of_backedBytes (s.noEntry_placeWord w) ?_ ?_
  · simpa using s.mem.backedBytes_placeWord s.pc w
  · simpa [Memory.wordAt_placeWord] using hd

/-- A row of 32 bits is placed as it is. -/
theorem State.withFetchWord_32 (n : Nat) : s.withFetchWord 32 n = s.placeWord (BitVec.ofNat 32 n) := by
  have hword : tableWord 32 n = BitVec.ofNat 32 n := BitVec.eq_of_toNat_eq (by simp [tableWord])
  rw [State.withFetchWord, hword]

end PlaceWord

/-- Settles O56: the placed word stands at `pc`, backed and with no interrupt before it, so the step runs it; the frame
is that of the four placed bytes. -/
theorem placedWordRunsNext : Obligations.PlacedWordRunsNext := by
  intro s n i _ hd
  rw [State.withFetchWord_32]
  have hstep := step_of_runs (s.runs_placeWord _ hd)
  rw [State.passBoundary, State.advance, State.setLine_pc, State.placeWord_pc] at hstep
  refine ⟨hstep, s.readReg_placeWord _, s.placeWord_int _, s.placeWord_line_tail _, fun hwf => ?_, fun x hx => ?_⟩
  · rw [State.placeWord_mem]
    exact Memory.wf_placeWord _ _ hwf
  · rw [State.placeWord_mem]
    refine Memory.placeWord_frame _ _ fun hmem => ?_
    rw [wordAddrs_eq_map_range, List.mem_map] at hmem
    obtain ⟨k, hk, rfl⟩ := hmem
    exact hx k (List.mem_range.1 hk) rfl

end Sys2Proof.Machine

/-! SUPPORT. What an instruction that goes on can do to the state, said once for all of `exec`, and what follows from it
for each field of the state (10_state.md R31, R33, R39; 20_memory.md R60). -/

namespace Sys2Proof.Machine

/-! ### Going on, for the meanings that need their own lemma -/

/-- A division that goes on passed the mode check, had a nonzero divisor and wrote its register (R136). -/
theorem execDiv_eq_next {a b c : Reg} {s t : State} :
    execDiv a b c s = .next t ↔
      s.mayWrite a = true ∧ s.readReg c ≠ 0#32 ∧ t = s.writeReg a (quotient (s.readReg b) (s.readReg c)) := by
  rw [execDiv, withDest_eq_next]
  by_cases hc : s.readReg c = 0#32 <;> simp [hc, @eq_comm _ t]

/-- An enabled SWI is an interrupt entry at its constant (R169, R195). -/
theorem execSwi_of_swiEnabled {s : State} (c : Word) (h : s.swiEnabled = true) :
    execSwi c s = .next (enterInterrupt c s) := by
  simp [execSwi, h]

/-- A disabled SWI does nothing (R212). -/
theorem execSwi_of_not_swiEnabled {s : State} (c : Word) (h : ¬s.swiEnabled = true) : execSwi c s = .next s := by
  simp [execSwi, h]

/-- A software interrupt is enabled exactly with I = 1, T = 1 and INT = 0 (R192). -/
theorem State.swiEnabled_iff {s : State} : s.swiEnabled = true ↔ s.flagI = true ∧ s.flagT = true ∧ s.int = false := by
  simp [State.swiEnabled, and_assoc]

/-- CMP replaces Z and N of the status word and keeps every other bit (R131, R34). -/
theorem getLsbD_compareFlags (sw p q : Word) (k : Nat) :
    (compareFlags sw p q).getLsbD k =
      if k = Config.swZ then decide (p = q)
      else if k = Config.swN then lessThan Config.cmpSigned p q else sw.getLsbD k := by
  rw [compareFlags, getLsbD_setBit _ _ _ _ (by decide), getLsbD_setBit _ _ _ _ (by decide)]

/-! ### A store's memory -/

/-- `m'` is `m` after one word write or one byte write that succeeded (R56). -/
def Memory.Stores (m m' : Memory) : Prop :=
  (∃ p v, m.writeWord p v = .ok m') ∨ ∃ p v, m.writeByte p v = .ok m'

theorem Memory.Stores.wf {m m' : Memory} (h : m.Stores m') (hm : m.wf) : m'.wf := by
  rcases h with ⟨p, v, h⟩ | ⟨p, v, h⟩
  · exact Memory.wf_writeWord hm h
  · exact Memory.wf_writeByte hm h

theorem Memory.Stores.backed_eq {m m' : Memory} (h : m.Stores m') : m'.backed = m.backed := by
  rcases h with ⟨p, v, h⟩ | ⟨p, v, h⟩
  · obtain ⟨-, rfl⟩ := Memory.writeWord_eq_ok.1 h
    rfl
  · obtain ⟨-, rfl⟩ := Memory.writeByte_eq_ok.1 h
    rfl

/-! ### The effects of the instructions -/

/-- `Effect i s t`: the ways in which instruction `i` can take `s` to `t`, by what they write. `exec_effect` ties it to
`exec`. -/
inductive Effect (i : Instr) (s : State) : State → Prop where
  /-- one register, the destination (R28) -/
  | write (a : Reg) (v : Word) (hdest : i.destination = some a) (hmay : s.mayWrite a = true) :
      Effect i s (s.writeReg a v)
  /-- the destination of a pop, and then SP (R182, R184) -/
  | pop (a : Reg) (v n : Word) (hdest : i.destination = some a) (hmay : s.mayWrite a = true) :
      Effect i s ((s.writeReg a v).raiseSp n)
  /-- N and Z of SW (R131) -/
  | compare (a b : Reg) (hi : i = .cmp a b) : Effect i s (s.setSw (compareFlags s.sw (s.readReg a) (s.readReg b)))
  /-- memory (R112, R114, R116, R118) -/
  | store (m : Memory) (hi : i.stores = true) (hm : s.mem.Stores m) : Effect i s (s.setMem m)
  /-- SP, and then memory (R181, R183) -/
  | push (m : Memory) (n : Word) (hi : i.stores = true) (hm : s.mem.Stores m) : Effect i s ((s.lowerSp n).setMem m)
  /-- `pc`; a jump not taken and a disabled SWI leave it as it is (R160, R171, R212) -/
  | jump (target : Word) (hi : i.jumps = true) : Effect i s (s.setPc target)
  /-- LR and `pc` (R170) -/
  | call (target : Word) (hi : i.jumps = true) : Effect i s ((s.writeReg .r14 s.pc).setPc target)
  /-- a software interrupt entry (R169, R195) -/
  | enter (c : Word) (hi : i = .swi c) (henabled : s.swiEnabled = true) : Effect i s (enterInterrupt c s)
  /-- the return from an interrupt (R172, R199) -/
  | leave (hi : i = .iret) : Effect i s (returnFromInterrupt s)

section OfMeaning

variable {i : Instr} {s t : State} {a : Reg} {ea v : Word}

theorem Effect.of_setDest (hdest : i.destination = some a) (h : setDest a v s = .next t) : Effect i s t := by
  obtain ⟨hmay, rfl⟩ := setDest_eq_next.1 h
  exact .write a v hdest hmay

theorem Effect.of_execDiv {b c : Reg} (hdest : i.destination = some a) (h : execDiv a b c s = .next t) :
    Effect i s t := by
  obtain ⟨hmay, -, rfl⟩ := execDiv_eq_next.1 h
  exact .write a _ hdest hmay

theorem Effect.of_loadWord (hdest : i.destination = some a) (h : loadWord a ea s = .next t) : Effect i s t := by
  obtain ⟨hmay, w, -, rfl⟩ := loadWord_eq_next.1 h
  exact .write a w hdest hmay

theorem Effect.of_loadByte (hdest : i.destination = some a) (h : loadByte a ea s = .next t) : Effect i s t := by
  obtain ⟨hmay, w, -, rfl⟩ := loadByte_eq_next.1 h
  exact .write a _ hdest hmay

theorem Effect.of_execPop (hdest : i.destination = some a) (h : execPop a s = .next t) : Effect i s t := by
  obtain ⟨hmay, w, -, rfl⟩ := execPop_eq_next.1 h
  exact .pop a w _ hdest hmay

theorem Effect.of_execPopb (hdest : i.destination = some a) (h : execPopb a s = .next t) : Effect i s t := by
  obtain ⟨hmay, w, -, rfl⟩ := execPopb_eq_next.1 h
  exact .pop a _ _ hdest hmay

theorem Effect.of_storeWord (hi : i.stores = true) (h : storeWord ea v s = .next t) : Effect i s t := by
  obtain ⟨m, hm, rfl⟩ := storeWord_eq_next.1 h
  exact .store m hi (.inl ⟨ea, v, hm⟩)

theorem Effect.of_storeByte (hi : i.stores = true) (h : storeByte ea v s = .next t) : Effect i s t := by
  obtain ⟨m, hm, rfl⟩ := storeByte_eq_next.1 h
  exact .store m hi (.inr ⟨ea, _, hm⟩)

theorem Effect.of_execPush (hi : i.stores = true) (h : execPush a s = .next t) : Effect i s t := by
  obtain ⟨m, hm, rfl⟩ := storeWord_eq_next.1 h
  exact .push m _ hi (.inl ⟨_, _, hm⟩)

theorem Effect.of_execPushb (hi : i.stores = true) (h : execPushb a s = .next t) : Effect i s t := by
  obtain ⟨m, hm, rfl⟩ := storeByte_eq_next.1 h
  exact .push m _ hi (.inr ⟨_, _, hm⟩)

theorem Effect.of_jumpIf {cond : Bool} {c : Word} (hi : i.jumps = true) (h : jumpIf cond c s = .next t) :
    Effect i s t := by
  cases h
  split
  · exact .jump _ hi
  · exact .jump s.pc hi

theorem Effect.of_execSwi {c : Word} (h : execSwi c s = .next t) : Effect (.swi c) s t := by
  by_cases henabled : s.swiEnabled = true
  · rw [execSwi_of_swiEnabled c henabled] at h
    cases h
    exact .enter c rfl henabled
  · rw [execSwi_of_not_swiEnabled c henabled] at h
    cases h
    exact .jump s.pc rfl

end OfMeaning

/-- An instruction that goes on has one of the effects. -/
theorem exec_effect {i : Instr} {s t : State} (h : exec i s = .next t) : Effect i s t := by
  cases i with
  | ldi | mov | add | sub | mul | and | or | xor | addi | rol | ror | shl | shr => exact .of_setDest rfl h
  | div => exact .of_execDiv rfl h
  | ld | ldr => exact .of_loadWord rfl h
  | ldb | lbr => exact .of_loadByte rfl h
  | st | str => exact .of_storeWord rfl h
  | stb | sbr => exact .of_storeByte rfl h
  | push => exact .of_execPush rfl h
  | pushb => exact .of_execPushb rfl h
  | pop => exact .of_execPop rfl h
  | popb => exact .of_execPopb rfl h
  | jeq | jne | jlt | jgt | jle | jge => exact .of_jumpIf rfl h
  | swi c => exact .of_execSwi h
  | cmp a b =>
    cases h
    exact .compare a b rfl
  | jmp | ret =>
    cases h
    exact .jump _ rfl
  | call =>
    cases h
    exact .call _ rfl
  | iret =>
    cases h
    exact .leave rfl

/-! ### What an instruction can do to each field -/

section Fields

variable {i : Instr} {s t : State}

/-- INT is written by an SWI that enters and by IRET alone (R39). -/
theorem Effect.int_cases (h : Effect i s t) :
    t.int = s.int ∨ (∃ c, i = .swi c ∧ s.swiEnabled = true ∧ t = enterInterrupt c s) ∨
      (i = .iret ∧ t = returnFromInterrupt s) := by
  cases h with
  | enter c hi henabled => exact .inr (.inl ⟨c, hi, henabled, rfl⟩)
  | leave hi => exact .inr (.inr ⟨hi, rfl⟩)
  | write | pop | compare | store | push | jump | call => exact .inl (by simp)

/-- SW is written as the destination and by CMP alone (R33, R34, R35). -/
theorem Effect.sw_cases (h : Effect i s t) :
    t.sw = s.sw ∨ (i.destination = some .r12 ∧ s.superMode = true) ∨
      ∃ a b, i = .cmp a b ∧ t.sw = compareFlags s.sw (s.readReg a) (s.readReg b) := by
  cases h with
  | write a v hdest hmay | pop a v n hdest hmay =>
    by_cases ha : a = .r12
    · subst ha
      exact .inr (.inl ⟨hdest, by simpa [State.mayWrite] using hmay⟩)
    · exact .inl (by simp [State.writeReg_sw, ha])
  | compare a b hi => exact .inr (.inr ⟨a, b, hi, rfl⟩)
  | call => exact .inl (by simp [State.writeReg_sw])
  | store | push | jump | enter | leave => exact .inl (by simp)

/-- Memory is written by the storing instructions alone (R52, R60). -/
theorem Effect.mem_cases (h : Effect i s t) : t.mem = s.mem ∨ (i.stores = true ∧ s.mem.Stores t.mem) := by
  cases h with
  | store m hi hm | push m _ hi hm => exact .inr ⟨hi, hm⟩
  | write | pop | compare | jump | call | enter | leave => exact .inl (by simp)

/-- `pc` is written as the destination and by the jump family alone (R31). -/
theorem Effect.pc_eq (h : Effect i s t) (hjumps : i.jumps = false) (hdest : i.destination ≠ some .r15) :
    t.pc = s.pc := by
  cases h with
  | write a v ha | pop a v n ha =>
    have hr15 : a ≠ .r15 := fun e => hdest (e ▸ ha)
    simp [State.writeReg_pc, hr15]
  | compare | store | push => simp
  | jump _ hi | call _ hi => simp [hjumps] at hi
  | enter c hi => simp [hi, Instr.jumps] at hjumps
  | leave hi => simp [hi, Instr.jumps] at hjumps

end Fields

/-! ### The step -/

/-- A step that goes on took a hardware interrupt, or had an effect of the instruction it ran. -/
theorem step_effect {s t : State} (h : step s = .next t) :
    (∃ addr, s.takenRequest = some addr ∧ t = enterInterrupt addr s.passBoundary) ∨
      ∃ i, s.runs i ∧ Effect i s.passBoundary.advance t := by
  rcases step_eq_next.1 h with hentry | ⟨i, hruns, hexec⟩
  · exact .inl hentry
  · exact .inr ⟨i, hruns, exec_effect hexec⟩

@[simp] theorem State.superMode_passBoundary (s : State) : s.passBoundary.superMode = s.superMode := rfl
@[simp] theorem State.superMode_advance (s : State) : s.advance.superMode = s.superMode := rfl

/-- Settles O35: a step takes a hardware interrupt, which is presented with I = 1, or has an effect of its instruction,
and only those of SWI and IRET write INT. -/
theorem intWrittenOnlyByEntryAndReturn : Obligations.IntWrittenOnlyByEntryAndReturn := by
  intro s t hstep hchanged
  rcases step_effect hstep with ⟨addr, htaken, rfl⟩ | ⟨i, hruns, heffect⟩
  · obtain ⟨hI, -, hline⟩ := State.takenRequest_eq_some.1 htaken
    exact .inl ⟨rfl, hI, .inl ⟨addr, hline, rfl⟩⟩
  · rcases heffect.int_cases with hint | ⟨c, rfl, henabled, rfl⟩ | ⟨rfl, rfl⟩
    · exact absurd hint hchanged
    · obtain ⟨hI, hT, -⟩ := State.swiEnabled_iff.1 henabled
      exact .inl ⟨rfl, hI, .inr ⟨c, hruns, hT, rfl⟩⟩
    · exact .inr ⟨rfl, hruns⟩

/-- Settles O39: an interrupt entry keeps SW, and an effect that changes SW is a write of R12 or that of CMP, which
keeps every bit but N and Z. -/
theorem statusWordWriters : Obligations.StatusWordWriters := by
  intro s t k hstep hchanged
  rcases step_effect hstep with ⟨addr, -, rfl⟩ | ⟨i, hruns, heffect⟩
  · exact absurd rfl hchanged
  · refine ⟨i, hruns, ?_⟩
    rcases heffect.sw_cases with hsw | ⟨hdest, hsuper⟩ | ⟨a, b, hi, hsw⟩
    · exact absurd (by simp [hsw]) hchanged
    · exact .inl ⟨hdest, by simpa using hsuper⟩
    · refine .inr ⟨⟨a, b, hi⟩, ?_⟩
      by_contra! hk
      obtain ⟨hN, hZ⟩ := hk
      exact hchanged (by simp [hsw, getLsbD_compareFlags, hN, hZ])

/-- Settles O40: a step leaves memory as it is, or writes one word or one byte at backed addresses. -/
theorem stepKeepsMemoryCanonical : Obligations.StepKeepsMemoryCanonical := by
  intro s t hwf hstep
  rcases step_effect hstep with ⟨addr, -, rfl⟩ | ⟨i, -, heffect⟩
  · exact ⟨hwf, rfl⟩
  · rcases heffect.mem_cases with hmem | ⟨-, hstores⟩
    · rw [hmem]
      exact ⟨hwf, rfl⟩
    · exact ⟨hstores.wf hwf, hstores.backed_eq⟩

/-- Settles O48: `pc` is written by the jump family and as the destination alone. -/
theorem pcStaysAdvanced : Obligations.PcStaysAdvanced := by
  intro i s t hexec hjumps hdest
  exact (exec_effect hexec).pc_eq hjumps hdest

/-! ### Going on where the program was left -/

/-- A request that is taken makes the step an interrupt entry (R194, R201). -/
theorem step_of_takenRequest {s : State} {addr : Word} (h : s.takenRequest = some addr) :
    step s = .next (enterInterrupt addr s.passBoundary) := by
  simp [step, h]

/-- An interrupt entry leaves the old `pc` in LR (R195). -/
theorem readReg_r14_enterInterrupt (x : Word) (s : State) : (enterInterrupt x s).readReg .r14 = s.pc := rfl

/-- A CALL leaves the old `pc` in LR (R170). -/
theorem readReg_r14_of_execCall {c : Word} {s t : State} (h : execCall c s = .next t) : t.readReg .r14 = s.pc := by
  cases h
  rfl

/-- IRET goes on at the address LR holds, with INT = 0 and SW as it is (R172, R199). -/
theorem exec_iret_resumes {u : State} {p : Word} (h : u.readReg .r14 = p) :
    ∃ v, exec .iret u = .next v ∧ v.pc = p ∧ v.int = false ∧ v.sw = u.sw :=
  ⟨returnFromInterrupt u, rfl, h, rfl, rfl⟩

/-- Settles O36: CALL and the two entries put the old `pc` in LR, where RET and IRET find it. -/
theorem returnsResumeWhereLeft : Obligations.ReturnsResumeWhereLeft := by
  refine ⟨fun c s t u hcall hlink => ?_, fun s t u addr htaken hstep hlink => ?_, fun c s t u henabled hswi hlink => ?_⟩
  · exact ⟨u.setPc (u.readReg .r14), rfl, hlink.trans (readReg_r14_of_execCall hcall)⟩
  · rw [step_of_takenRequest htaken] at hstep
    cases hstep
    exact exec_iret_resumes (hlink.trans (readReg_r14_enterInterrupt addr s.passBoundary))
  · cases (execSwi_of_swiEnabled c henabled).symm.trans hswi
    exact exec_iret_resumes (hlink.trans (readReg_r14_enterInterrupt c s))

end Sys2Proof.Machine

/-! SUPPORT. What a store leaves behind for the byte loads, the word loads and the fetch after it (20_memory.md R50,
R52, R67, R70). -/

namespace Sys2Proof.Machine

/-- Settles O42: an interrupt entry keeps memory, and only an effect of a storing instruction writes it. -/
theorem onlyStoresChangeMemory : Obligations.OnlyStoresChangeMemory := by
  intro s t hstep hchanged
  rcases step_effect hstep with ⟨addr, -, rfl⟩ | ⟨i, hruns, heffect⟩
  · exact absurd rfl hchanged
  · rcases heffect.mem_cases with hmem | ⟨hstores, -⟩
    · exact absurd hmem hchanged
    · exact ⟨i, hruns, hstores⟩

/-! ### Bytes of a stored word, and a word with a stored byte -/

/-- The `k`-th address of a word put in memory holds its `k`-th byte from the most significant one (R50). -/
theorem Memory.byteAt_putWord_offset (m : Memory) (p v : Word) {k : Nat} (hk : k < 4) :
    (m.putWord p v).byteAt (p + BitVec.ofNat 32 k) = v.extractLsb' (8 * (3 - k)) 8 := by
  interval_cases k <;> simp [Memory.byteAt_putWord]

/-- A byte put at a word's address replaces bits 31..24 of the word and keeps its lower three bytes (R50). -/
theorem Memory.wordAt_setByte (m : Memory) (p : Word) (v : Byte) :
    wordAt (m.setByte p v) p = v ++ (wordAt m p).extractLsb' 0 24 := by
  have hword : wordAt (m.setByte p v) p =
      v ++ m.byteAt (p + 1#32) ++ m.byteAt (p + 2#32) ++ m.byteAt (p + 3#32) := by
    simp [wordAt, Memory.byteAt_setByte]
  rw [hword]
  ext i hi
  simp only [wordAt]
  grind

/-- The byte at bit `n` of a word, zero-extended, is the word shifted down and masked (R57). -/
theorem extendByte_extractLsb' (v : Word) (n : Nat) : extendByte (v.extractLsb' n 8) = (v >>> n) &&& 0xFF#32 := by
  rw [extendByte_eq]
  ext i hi
  have hmask : (0xFF#32).getLsbD i = decide (i < 8) := by
    interval_cases i <;> rfl
  grind

/-! ### Stores that go on, and loads from backed bytes -/

/-- ST goes on exactly at four backed bytes, and puts the register's word there (R112). -/
theorem exec_st_eq_next {a b : Reg} {c : Word} {s t : State} :
    exec (.st a b c) s = .next t ↔
      backedBytes s.mem (s.readReg b + c) 4 ∧ t = s.setMem (s.mem.putWord (s.readReg b + c) (s.readReg a)) := by
  simp only [exec, execSt, eaConst, storeWord_eq_next, Memory.writeWord_eq_ok, Memory.forall_wordAddrs_isBacked,
    and_assoc, exists_and_left, exists_eq_left]

/-- STB goes on exactly at a backed byte, and puts the register's low byte there (R114). -/
theorem exec_stb_eq_next {a b : Reg} {c : Word} {s t : State} :
    exec (.stb a b c) s = .next t ↔
      s.mem.isBacked (s.readReg b + c) = true ∧
        t = s.setMem (s.mem.setByte (s.readReg b + c) (lowByte (s.readReg a))) := by
  simp only [exec, execStb, eaConst, storeByte_eq_next, Memory.writeByte_eq_ok, and_assoc, exists_and_left,
    exists_eq_left]

section Loads

variable {b d : Reg} {c p : Word} {s : State}

theorem State.mayWrite_of_ne_r12 (hd : d ≠ .r12) : s.mayWrite d = true := by
  simp [State.mayWrite, hd]

/-- LD into a register other than R0 and R12 from four backed bytes gives the word there (R111). -/
theorem exec_ld_of_backedBytes (h0 : d ≠ .r0) (h12 : d ≠ .r12) (hea : s.readReg b + c = p)
    (hb : backedBytes s.mem p 4) : ∃ u, exec (.ld d b c) s = .next u ∧ u.readReg d = wordAt s.mem p := by
  subst hea
  exact ⟨_, loadWord_eq_next.2 ⟨State.mayWrite_of_ne_r12 h12, _, Memory.readWord_of_backedBytes hb, rfl⟩,
    by simp [State.readReg_writeReg, h0, eaConst]⟩

/-- LDB into a register other than R0 and R12 from a backed byte gives the byte there, zero-extended (R113). -/
theorem exec_ldb_of_isBacked (h0 : d ≠ .r0) (h12 : d ≠ .r12) (hea : s.readReg b + c = p)
    (hb : s.mem.isBacked p = true) :
    ∃ u, exec (.ldb d b c) s = .next u ∧ u.readReg d = extendByte (s.mem.byteAt p) := by
  subst hea
  exact ⟨_, loadByte_eq_next.2 ⟨State.mayWrite_of_ne_r12 h12, _, Memory.readByte_eq_ok.2 ⟨hb, rfl⟩, rfl⟩,
    by simp [State.readReg_writeReg, h0, eaConst]⟩

/-- Only R15 reads differently at the next instruction (R30). -/
theorem State.readReg_advance_of_ne_r15 (hb : b ≠ .r15) : s.advance.readReg b = s.readReg b := by
  simp [State.advance, State.readReg_setPc, hb]

end Loads

/-- Settles O43: the load computes the store's address again, finds it backed, and reads what the store left there. -/
theorem mixedWidthAccess : Obligations.MixedWidthAccess := by
  refine ⟨fun a b c d s t k hb h0 h12 hk hst => ?_, fun a b c d s t hb h0 h12 hbacked hstb => ?_⟩
  · obtain ⟨hbacked, ht⟩ := exec_st_eq_next.1 hst
    have hea : t.advance.readReg b + (c + BitVec.ofNat 32 k) = s.readReg b + c + BitVec.ofNat 32 k := by
      rw [State.readReg_advance_of_ne_r15 hb, ht, State.readReg_setMem, BitVec.add_assoc]
    have hload : t.advance.mem.isBacked (s.readReg b + c + BitVec.ofNat 32 k) = true := by
      simpa [ht] using hbacked k hk
    obtain ⟨u, hu, hread⟩ := exec_ldb_of_isBacked h0 h12 hea hload
    refine ⟨u, hu, ?_⟩
    rw [hread, ht, State.advance_mem, State.setMem_mem, Memory.byteAt_putWord_offset _ _ _ hk, extendByte_extractLsb']
  · obtain ⟨-, ht⟩ := exec_stb_eq_next.1 hstb
    have hea : t.advance.readReg b + c = s.readReg b + c := by
      rw [State.readReg_advance_of_ne_r15 hb, ht, State.readReg_setMem]
    have hload : backedBytes t.advance.mem (s.readReg b + c) 4 := fun j hj => by
      simpa [ht] using hbacked j hj
    obtain ⟨u, hu, hread⟩ := exec_ld_of_backedBytes h0 h12 hea hload
    refine ⟨u, hu, ?_⟩
    rw [hread, ht, State.advance_mem, State.setMem_mem, Memory.wordAt_setByte, lowByte]

/-- Settles O44: the store leaves the word at `pc`, backed, and the boundary as it was, so the next step runs what the
word decodes to. -/
theorem storeSeenByNextFetch : Obligations.StoreSeenByNextFetch := by
  intro a b c s t i hst hpc hs hd
  obtain ⟨hbacked, ht⟩ := exec_st_eq_next.1 hst
  rw [hpc] at hbacked ht
  have htpc : t.pc = s.pc := by simp [ht]
  have hnoEntry : t.noEntry := by rwa [ht]
  have hfetch : backedBytes t.mem t.pc 4 := fun k hk => by simpa [ht] using hbacked k hk
  have hdecode : decodeWord (wordAt t.mem t.pc) = .ok i := by simpa [ht, Memory.wordAt_putWord] using hd
  rw [step_of_runs (State.runs_of_backedBytes hnoEntry hfetch hdecode), ← htpc]
  rfl

end Sys2Proof.Machine

/-! SUPPORT. Which words decode to an instruction, said once: those whose OP and operand fields are the instruction's,
and those whose used bits are its canonical word (30_encoding.md R83 to R90, R94). -/

namespace Sys2Proof

/-! ### Words put together by the formats -/

theorem formatA_eq_iff {op : Byte} {a b c : BitVec 4} {cx : BitVec 12} {w : Word} :
    formatA op a b c cx = w ↔
      op = opField w ∧ a = aField w ∧ b = bField w ∧ c = cField w ∧ cx = w.extractLsb' 0 12 := by
  constructor
  · rintro rfl
    exact ⟨(opField_formatA ..).symm, (aField_formatA ..).symm, (bField_formatA ..).symm, (cField_formatA ..).symm,
      (constant_formatA ..).symm⟩
  · rintro ⟨rfl, rfl, rfl, rfl, rfl⟩
    ext i hi
    simp only [formatA, opField, aField, bField, cField]
    grind

theorem formatL_eq_iff {op : Byte} {a b : BitVec 4} {cx : BitVec 16} {w : Word} :
    formatL op a b cx = w ↔ op = opField w ∧ a = aField w ∧ b = bField w ∧ cx = w.extractLsb' 0 16 := by
  constructor
  · rintro rfl
    exact ⟨(opField_formatL ..).symm, (aField_formatL ..).symm, (bField_formatL ..).symm, (constant_formatL ..).symm⟩
  · rintro ⟨rfl, rfl, rfl, rfl⟩
    ext i hi
    simp only [formatL, opField, aField, bField]
    grind

theorem formatJ_eq_iff {op : Byte} {cx : BitVec 24} {w : Word} :
    formatJ op cx = w ↔ op = opField w ∧ cx = w.extractLsb' 0 24 := by
  constructor
  · rintro rfl
    exact ⟨(opField_formatJ ..).symm, (constant_formatJ ..).symm⟩
  · rintro ⟨rfl, rfl⟩
    ext i hi
    simp only [formatJ, opField]
    grind

/-! ### Operands that fit their field -/

theorem Reg.field_eq_iff {r : Reg} {f : BitVec 4} : r.field = f ↔ r = Reg.ofField f :=
  ⟨fun h => by rw [← h, Reg.ofField_field], fun h => by rw [h, Reg.field_ofField]⟩

theorem Reg.field_r0 : Reg.r0.field = 0#4 := rfl

/-- A constant fits a signed field and has the field's bits exactly if it is their signed reading (R86, R99). -/
theorem fitsSigned_and_setWidth_eq_iff {n : Nat} (h0 : 0 < n) (h32 : n ≤ 32) {c : Word} {x : BitVec n} :
    fitsSigned n c = true ∧ c.setWidth n = x ↔ c = x.signExtend 32 := by
  simp only [fitsSigned, Bool.and_eq_true, decide_eq_true_eq]
  constructor
  · rintro ⟨⟨hlo, hhi⟩, rfl⟩
    have hpow : (2 : Int) ^ n = 2 ^ (n - 1) * 2 := by rw [← pow_succ, Nat.sub_add_cancel h0]
    apply BitVec.eq_of_toInt_eq
    rw [BitVec.toInt_signExtend_of_le h32, ← BitVec.signExtend_eq_setWidth_of_le c h32,
      BitVec.toInt_signExtend_eq_toInt_bmod_of_le c h32, Int.bmod_eq_of_le_mul_two] <;> push_cast <;> omega
  · rintro rfl
    rw [BitVec.toInt_signExtend_of_le h32]
    refine ⟨⟨x.le_toInt, x.toInt_lt⟩, ?_⟩
    ext i hi
    grind

/-- A count fits its field and has the field's bits exactly if it is their unsigned reading (R86, R99). -/
theorem fits5_and_ofNat_eq_iff {n : Nat} {x : BitVec 5} : fits5 n = true ∧ BitVec.ofNat 5 n = x ↔ n = x.toNat := by
  simp only [fits5, decide_eq_true_eq, ← BitVec.toNat_inj, BitVec.toNat_ofNat]
  omega

/-! ### The fields of a masked word -/

theorem extractLsb'_and_of_ones {w m : Word} {k n : Nat} (hm : m.extractLsb' k n = BitVec.allOnes n) :
    (w &&& m).extractLsb' k n = w.extractLsb' k n := by
  rw [BitVec.extractLsb'_and, hm, BitVec.and_allOnes]

theorem extractLsb'_and_of_zeros {w m : Word} {k n : Nat} (hm : m.extractLsb' k n = 0#n) :
    (w &&& m).extractLsb' k n = 0#n := by
  rw [BitVec.extractLsb'_and, hm, BitVec.and_zero]

/-- Under the mask of a shift or rotate the 12-bit constant field holds the count in bits 4..0 and zeros above. -/
theorem setWidth_ofNat_eq_masked_iff {n : Nat} {w : Word} :
    (BitVec.ofNat 5 n).setWidth 12 = (w &&& ~~~0x0000FFE0#32).extractLsb' 0 12 ↔
      BitVec.ofNat 5 n = w.extractLsb' 0 5 := by
  have hcount : (w &&& ~~~0x0000FFE0#32).extractLsb' 0 12 = (w.extractLsb' 0 5).setWidth 12 := by
    rw [BitVec.extractLsb'_and]
    ext i hi
    interval_cases i <;> simp
  rw [hcount]
  refine ⟨fun h => ?_, fun h => by rw [h]⟩
  simpa using congrArg (BitVec.setWidth 5) h

/-! ### A canonical word that agrees with a word in the used bits

One lemma per row of the table of R90: the word is canonical under the row's mask exactly if OP and the operands are the
fields. -/

section Masked

variable {i : Instr} {a b c : Reg} {cx ir : Word} {n : Nat}

theorem wordABC_eq_masked_iff : wordABC i a b c = ir &&& ~~~0x00000FFF#32 ↔
    i.opcode = opField ir ∧ a = regA ir ∧ b = regB ir ∧ c = regC ir := by
  simp (disch := decide) only [wordABC, formatA_eq_iff, opField, aField, bField, cField, regA, regB, regC,
    extractLsb'_and_of_ones, extractLsb'_and_of_zeros, Reg.field_eq_iff, and_true]

theorem wordAB_eq_masked_iff : wordABC i a b .r0 = ir &&& ~~~0x0000FFFF#32 ↔
    i.opcode = opField ir ∧ a = regA ir ∧ b = regB ir := by
  simp (disch := decide) only [wordABC, formatA_eq_iff, opField, aField, bField, cField, regA, regB,
    extractLsb'_and_of_ones, extractLsb'_and_of_zeros, Reg.field_r0, Reg.field_eq_iff, and_true]

theorem wordA_eq_masked_iff : wordABC i a .r0 .r0 = ir &&& ~~~0x000FFFFF#32 ↔
    i.opcode = opField ir ∧ a = regA ir := by
  simp (disch := decide) only [wordABC, formatA_eq_iff, opField, aField, bField, cField, regA,
    extractLsb'_and_of_ones, extractLsb'_and_of_zeros, Reg.field_r0, Reg.field_eq_iff, and_true]

theorem fits12_and_eq_masked_iff :
    fits12 cx = true ∧ formatA i.opcode a.field b.field 0#4 (cx.setWidth 12) = ir &&& ~~~0x0000F000#32 ↔
      i.opcode = opField ir ∧ a = regA ir ∧ b = regB ir ∧ cx = c12Field ir := by
  simp (disch := decide) only [formatA_eq_iff, opField, aField, bField, cField, regA, regB, c12Field, fits12,
    extractLsb'_and_of_ones, extractLsb'_and_of_zeros, Reg.field_eq_iff, true_and,
    ← fitsSigned_and_setWidth_eq_iff]
  tauto

theorem fits5_and_wordShift_eq_masked_iff :
    fits5 n = true ∧ wordShift i a b n = ir &&& ~~~0x0000FFE0#32 ↔
      i.opcode = opField ir ∧ a = regA ir ∧ b = regB ir ∧ n = c5Field ir := by
  rw [wordShift, formatA_eq_iff, setWidth_ofNat_eq_masked_iff, c5Field, ← fits5_and_ofNat_eq_iff]
  simp (disch := decide) only [opField, aField, bField, cField, regA, regB,
    extractLsb'_and_of_ones, extractLsb'_and_of_zeros, Reg.field_eq_iff, true_and]
  tauto

theorem fits16_and_wordL_eq_masked_iff :
    fits16 cx = true ∧ wordL i a b cx = ir &&& ~~~0x00000000#32 ↔
      i.opcode = opField ir ∧ a = regA ir ∧ b = regB ir ∧ cx = c16Field ir := by
  simp (disch := decide) only [wordL, formatL_eq_iff, opField, aField, bField, regA, regB, c16Field, fits16,
    extractLsb'_and_of_ones, Reg.field_eq_iff, ← fitsSigned_and_setWidth_eq_iff]
  tauto

theorem fits16_and_wordL_r0_eq_masked_iff :
    fits16 cx = true ∧ wordL i a .r0 cx = ir &&& ~~~0x000F0000#32 ↔
      i.opcode = opField ir ∧ a = regA ir ∧ cx = c16Field ir := by
  simp (disch := decide) only [wordL, formatL_eq_iff, opField, aField, bField, regA, c16Field, fits16,
    extractLsb'_and_of_ones, extractLsb'_and_of_zeros, Reg.field_r0, Reg.field_eq_iff, true_and,
    ← fitsSigned_and_setWidth_eq_iff]
  tauto

theorem fits24_and_wordJ_eq_masked_iff :
    fits24 cx = true ∧ wordJ i cx = ir &&& ~~~0x00000000#32 ↔ i.opcode = opField ir ∧ cx = c24Field ir := by
  simp (disch := decide) only [wordJ, formatJ_eq_iff, opField, c24Field, fits24, extractLsb'_and_of_ones,
    ← fitsSigned_and_setWidth_eq_iff]
  tauto

theorem wordJ_zero_eq_masked_iff : wordJ i 0#32 = ir &&& ~~~0x00FFFFFF#32 ↔ i.opcode = opField ir := by
  simp (disch := decide) only [wordJ, formatJ_eq_iff, opField, BitVec.setWidth_zero, extractLsb'_and_of_ones,
    extractLsb'_and_of_zeros, and_true]

end Masked

/-! ### Decoding -/

/-- The operands are what the word's fields say: the operand columns of R88, one line per way the rows use the fields.
`decodeWord_eq_ok_iff_fields` ties it to the decoder. -/
def Instr.operandsIn (ir : Word) : Instr → Prop
  | .ld a b cx | .st a b cx | .ldb a b cx | .stb a b cx => a = regA ir ∧ b = regB ir ∧ cx = c16Field ir
  | .ldi a cx => a = regA ir ∧ cx = c16Field ir
  | .ldr a b c | .str a b c | .lbr a b c | .sbr a b c | .add a b c | .sub a b c | .mul a b c | .div a b c
  | .and a b c | .or a b c | .xor a b c => a = regA ir ∧ b = regB ir ∧ c = regC ir
  | .cmp a b | .mov a b => a = regA ir ∧ b = regB ir
  | .addi a b cx => a = regA ir ∧ b = regB ir ∧ cx = c12Field ir
  | .rol a b n | .ror a b n | .shl a b n | .shr a b n => a = regA ir ∧ b = regB ir ∧ n = c5Field ir
  | .jeq cx | .jne cx | .jlt cx | .jgt cx | .jle cx | .jge cx | .jmp cx | .swi cx | .call cx => cx = c24Field ir
  | .ret | .iret => True
  | .push a | .pop a | .pushb a | .popb a => a = regA ir

/-- A word decodes to the instruction that has its OP value and its operand fields (R87, R88). One argument for every
arm of the decoder: the arm fixes the value of OP, and it reads the operands from the fields. -/
theorem decodeWord_eq_ok_iff_fields {ir : Word} {i : Instr} :
    decodeWord ir = .ok i ↔ i.opcode = opField ir ∧ i.operandsIn ir := by
  constructor
  · intro h
    unfold decodeWord at h
    split at h <;> cases h <;> simp_all [← BitVec.toNat_inj, Instr.opcode, Instr.operandsIn]
  · rintro ⟨hop, hoperands⟩
    cases i <;> simp_all [decodeWord, ← hop, Instr.opcode, Instr.operandsIn]

/-- A well-formed instruction's canonical word is the used bits of a word exactly if OP and the operands are the word's
fields (R90, R94). -/
theorem wf_and_encode_eq_masked_iff {ir : Word} {i : Instr} :
    i.wf = true ∧ encode i = ir &&& ~~~i.unusedBits ↔ i.opcode = opField ir ∧ i.operandsIn ir := by
  cases i with
  | ld | st | ldb | stb => exact fits16_and_wordL_eq_masked_iff
  | ldi => exact fits16_and_wordL_r0_eq_masked_iff
  | addi => exact fits12_and_eq_masked_iff
  | rol | ror | shl | shr => exact fits5_and_wordShift_eq_masked_iff
  | jeq | jne | jlt | jgt | jle | jge | jmp | swi | call => exact fits24_and_wordJ_eq_masked_iff
  | ldr | str | lbr | sbr | add | sub | mul | div | and | or | xor =>
    exact (and_iff_right rfl).trans wordABC_eq_masked_iff
  | cmp | mov => exact (and_iff_right rfl).trans wordAB_eq_masked_iff
  | push | pop | pushb | popb => exact (and_iff_right rfl).trans wordA_eq_masked_iff
  | ret | iret => exact (and_iff_right rfl).trans (wordJ_zero_eq_masked_iff.trans (and_iff_left trivial).symm)

/-- A word decodes to an instruction exactly if the instruction is well-formed and its canonical word is the word with
the unused bits cleared (R90, R94). -/
theorem decodeWord_eq_ok_iff {ir : Word} {i : Instr} :
    decodeWord ir = .ok i ↔ i.wf = true ∧ encode i = ir &&& ~~~i.unusedBits :=
  decodeWord_eq_ok_iff_fields.trans wf_and_encode_eq_masked_iff.symm

/-- Settles O28: by `decodeWord_eq_ok_iff` the words that decode to one instruction are those whose used bits are its
canonical word. -/
theorem onlyUnusedBitsAreIgnored : Obligations.OnlyUnusedBitsAreIgnored := by
  intro ir i hd
  obtain ⟨hwf, hencode⟩ := decodeWord_eq_ok_iff.1 hd
  refine ⟨hencode, fun ir' => ?_⟩
  rw [decodeWord_eq_ok_iff, hencode, and_iff_right hwf, eq_comm]

end Sys2Proof

/-! SUPPORT. The unassigned OP values and the words that do not decode (30_encoding.md R89), the all-zero word (R92), and
that no meaning answers a refusal (R88). -/

namespace Sys2Proof.Machine

/-! ### Unassigned OP values -/

/-- The unassigned OP values, by ranges: 14 below 0x34, and every one from there on (R89). -/
theorem unassignedOp_iff {op : Byte} :
    unassignedOp op = true ↔
      (0x09 ≤ op.toNat ∧ op.toNat ≤ 0x0F) ∨ op.toNat = 0x11 ∨ op.toNat = 0x17 ∨
        (0x27 ≤ op.toNat ∧ op.toNat ≤ 0x29) ∨ (0x2E ≤ op.toNat ∧ op.toNat ≤ 0x2F) ∨ 0x34 ≤ op.toNat := by
  simp only [unassignedOp, List.contains_eq_mem, List.mem_cons, List.not_mem_nil, or_false, Bool.or_eq_true,
    decide_eq_true_eq, ← BitVec.toNat_inj, BitVec.toNat_ofNat, Nat.reducePow, Nat.reduceMod]
  omega

theorem length_filter_unassignedOp :
    ((List.range 256).filter fun n => unassignedOp (BitVec.ofNat 8 n)).length = 218 := by
  have hlow : ((List.range 0x34).filter fun n => unassignedOp (BitVec.ofNat 8 n)).length = 14 := by decide
  have hhigh : ∀ n ∈ (List.range 204).map (0x34 + ·), unassignedOp (BitVec.ofNat 8 n) = true := by
    simp only [List.mem_map, List.mem_range, unassignedOp_iff, BitVec.toNat_ofNat]
    omega
  rw [show 256 = 0x34 + 204 from rfl, List.range_add, List.filter_append, List.length_append, hlow,
    List.filter_eq_self.2 hhigh, List.length_map, List.length_range]

theorem unassignedOp_opcode (i : Instr) : unassignedOp i.opcode = false := by
  cases i <;> rfl

/-- A word fails to decode exactly by an unassigned OP (R89). -/
theorem decodeWord_eq_error_iff {ir : Word} :
    (∃ e, decodeWord ir = .error e) ↔ unassignedOp (opField ir) = true := by
  constructor
  · rintro ⟨e, h⟩
    unfold decodeWord at h
    split at h <;> cases h
    simp only [imp_false] at *
    rw [unassignedOp_iff]
    omega
  · intro hop
    cases hd : decodeWord ir with
    | error e => exact ⟨e, rfl⟩
    | ok i =>
      obtain ⟨hopcode, -⟩ := decodeWord_eq_ok_iff_fields.1 hd
      rw [← hopcode, unassignedOp_opcode] at hop
      contradiction

/-- A word decodes exactly if its OP is assigned (R88, R89). -/
theorem exists_decodeWord_eq_ok_iff {ir : Word} :
    (∃ i, decodeWord ir = .ok i) ↔ unassignedOp (opField ir) = false := by
  rw [← Bool.not_eq_true, ← decodeWord_eq_error_iff]
  cases decodeWord ir <;> simp

/-- Settles O29: the decoder fails exactly at the unassigned values, and a step whose decoding fails is a fault. -/
theorem unassignedOpcodesStop : Obligations.UnassignedOpcodesStop := by
  refine ⟨length_filter_unassignedOp, fun ir => exists_decodeWord_eq_ok_iff.symm, fun s hs hb hop => ?_⟩
  obtain ⟨e, he⟩ := decodeWord_eq_error_iff.2 hop
  exact step_eq_fault.2 ⟨State.takenRequest_eq_none.2 hs,
    .inr (.inl ⟨_, e, Memory.readWord_of_backedBytes hb, he, rfl⟩)⟩

/-! ### No meaning refuses -/

section NotRefused

variable {a b c : Reg} {ea v : Word} {s : State} {r : Refusal}

theorem next_ne_refused : (.next s : Host.Outcome State Fault Refusal) ≠ .refused r := by
  simp

theorem loadWord_ne_refused : loadWord a ea s ≠ .refused r := by
  rw [loadWord, ne_eq, withDest_eq_refused]
  cases s.mem.readWord ea <;> simp

theorem loadByte_ne_refused : loadByte a ea s ≠ .refused r := by
  rw [loadByte, ne_eq, withDest_eq_refused]
  cases s.mem.readByte ea <;> simp

theorem storeWord_ne_refused : storeWord ea v s ≠ .refused r := by
  rw [storeWord]
  cases s.mem.writeWord ea v <;> simp

theorem storeByte_ne_refused : storeByte ea v s ≠ .refused r := by
  rw [storeByte]
  cases s.mem.writeByte ea (lowByte v) <;> simp

theorem execDiv_ne_refused : execDiv a b c s ≠ .refused r := by
  rw [execDiv, ne_eq, withDest_eq_refused]
  by_cases hc : s.readReg c = 0#32 <;> simp [hc]

theorem execPop_ne_refused : execPop a s ≠ .refused r := by
  rw [execPop, ne_eq, withDest_eq_refused]
  cases s.mem.readWord (s.readReg .r13) <;> simp

theorem execPopb_ne_refused : execPopb a s ≠ .refused r := by
  rw [execPopb, ne_eq, withDest_eq_refused]
  cases s.mem.readByte (s.readReg .r13) <;> simp

end NotRefused

/-- No instruction is refused (R88). -/
theorem exec_ne_refused (i : Instr) (s : State) (r : Refusal) : exec i s ≠ .refused r := by
  cases i with
  | ldi | mov | add | sub | mul | and | or | xor | addi | rol | ror | shl | shr => exact setDest_ne_refused
  | div => exact execDiv_ne_refused
  | ld | ldr => exact loadWord_ne_refused
  | ldb | lbr => exact loadByte_ne_refused
  | st | str | push => exact storeWord_ne_refused
  | stb | sbr | pushb => exact storeByte_ne_refused
  | pop => exact execPop_ne_refused
  | popb => exact execPopb_ne_refused
  | cmp | jeq | jne | jlt | jgt | jle | jge | jmp | swi | call | ret | iret => exact next_ne_refused

/-- Settles O47: a step is refused only by its instruction, and none refuses. -/
theorem nothingIsRefused : Obligations.NothingIsRefused := by
  intro s r hstep
  obtain ⟨i, -, hexec⟩ := step_eq_refused.1 hstep
  exact exec_ne_refused i s.passBoundary.advance r hexec

/-! ### Words written out -/

/-- Settles O30: each instruction is well-formed, and the word is its canonical word. -/
theorem wordsOfEveryFamilyDecode : Obligations.WordsOfEveryFamilyDecode := by
  refine ⟨?_, ?_, ?_, ?_, ?_, ?_, ?_⟩ <;> exact decodeWord_eq_ok_iff.2 (by decide)

/-- The all-zero word is `LD R0, [R0+0]` (R92). -/
theorem decodeWord_zero : decodeWord 0#32 = .ok (.ld .r0 .r0 0#32) := decodeWord_eq_ok_iff.2 (by decide)

/-- `LD R0, [R0+0]` is a load of the word at address 0, whatever the state (R21, R111). -/
theorem exec_ld_r0_r0_zero (s : State) : exec (.ld .r0 .r0 0#32) s = loadWord .r0 0#32 s := rfl

/-- Settles O53: the step runs the load of address 0 into R0, which drops the word or faults at the first unbacked
byte. -/
theorem zeroWordOnlyAdvances : Obligations.ZeroWordOnlyAdvances := by
  intro s hs hb hzero
  have hstep : step s = loadWord .r0 0#32 s.passBoundary.advance :=
    (step_of_runs (State.runs_of_backedBytes hs hb (hzero.symm ▸ decodeWord_zero))).trans (exec_ld_r0_r0_zero _)
  have hmay : s.passBoundary.advance.mayWrite .r0 = true := State.mayWrite_of_ne_r12 (by decide)
  rw [hstep]
  refine ⟨fun h0 => ?_, fun x hx => ?_⟩
  · exact loadWord_eq_next.2 ⟨hmay, _, Memory.readWord_of_backedBytes h0, rfl⟩
  · exact loadWord_eq_fault.2 (.inr ⟨hmay, Memory.readWord_of_firstUnbackedByte hx⟩)

end Sys2Proof.Machine

/-! SUPPORT. What the loads, the stores and the constant load do, in the terms of the statements (40_load_store.md): the
shapes `writesReg`, `loadsReg`, `storesWord` and `storesByte`, proved once for each shared operation and used by every
instruction whose meaning is that operation. -/

namespace Sys2Proof.Machine

/-! ### One byte address -/

/-- An access of one byte touches its own address alone (R53). -/
theorem backedBytes_one {m : Memory} {p : Word} : backedBytes m p 1 ↔ m.isBacked p = true := by
  simp only [backedBytes, Nat.lt_one_iff, forall_eq, BitVec.add_zero]

theorem firstUnbackedByte_one {m : Memory} {p x : Word} :
    firstUnbackedByte m p 1 x ↔ x = p ∧ m.isBacked p = false := by
  simp only [firstUnbackedByte, Nat.lt_one_iff, exists_eq_left, Nat.not_lt_zero, false_imp_iff, implies_true, and_true,
    BitVec.add_zero]
  exact and_congr_right fun hx => by rw [hx]

/-- A byte load fills bits 31..8 with zeros (R57, R113). -/
theorem extendByte_eq_append (v : Byte) : extendByte v = 0#24 ++ v := by
  rw [extendByte_eq]
  ext i hi
  grind

/-! ### Instructions with a destination -/

section Destination

variable {i : Instr} {a : Reg} {ea v : Word} {s : State} {k : Host.Outcome State Fault Refusal}

/-- A register write changes that register and nothing else (R28). -/
theorem changesOnlyReg_writeReg (a : Reg) (v : Word) (s : State) : changesOnlyReg a v s (s.writeReg a v) :=
  ⟨fun r => s.readReg_writeReg a r v, s.writeReg_int a v, s.writeReg_mem a v, s.writeReg_line a v⟩

/-- A write of R12 in user mode stops at the mode check, before what follows it (R38, R191). -/
theorem withDest_of_userWriteSW (h : a = .r12 ∧ s.superMode = false) :
    withDest a s k = .fault (.userWriteSW (s.pc - 4#32)) :=
  withDest_eq_fault.2 (.inl ⟨State.mayWrite_eq_false.2 h, rfl⟩)

/-- Every other write passes the mode check (R38). -/
theorem withDest_of_not_userWriteSW (h : ¬(a = .r12 ∧ s.superMode = false)) : withDest a s k = k := by
  rw [← State.mayWrite_eq_false, Bool.not_eq_false] at h
  simp [withDest, h]

/-- An instruction whose meaning is `setDest` writes its destination and nothing else. -/
theorem writesReg_of_setDest (h : exec i s = setDest a v s) : writesReg i a v s :=
  ⟨fun hsw => h.trans (withDest_of_userWriteSW hsw),
    fun hsw => ⟨_, h.trans (withDest_of_not_userWriteSW hsw), changesOnlyReg_writeReg a v s⟩⟩

/-- A checked access of `n` bytes that writes its destination where they are backed, and else reports the first that is
not, is a load. -/
theorem loadsReg_of_withDest {n : Nat} (h : exec i s = withDest a s k)
    (hnext : backedBytes s.mem ea n → k = .next (s.writeReg a v))
    (hfault : ∀ x, firstUnbackedByte s.mem ea n x → k = .fault (.memUnmapped x)) : loadsReg i a ea n v s := by
  refine ⟨fun hsw => h.trans (withDest_of_userWriteSW hsw), fun hsw => ?_⟩
  rw [h, withDest_of_not_userWriteSW hsw]
  exact ⟨fun hb => ⟨_, hnext hb, changesOnlyReg_writeReg a v s⟩, hfault⟩

/-- An instruction whose meaning is `loadWord` loads the word at its address (R111, R115). -/
theorem loadsReg_of_loadWord (h : exec i s = loadWord a ea s) : loadsReg i a ea 4 (wordAt s.mem ea) s :=
  loadsReg_of_withDest h (fun hb => by rw [Memory.readWord_of_backedBytes hb])
    fun x hx => by rw [Memory.readWord_of_firstUnbackedByte hx]

/-- An instruction whose meaning is `loadByte` loads the byte at its address, with zeros above it (R113, R117). -/
theorem loadsReg_of_loadByte (h : exec i s = loadByte a ea s) : loadsReg i a ea 1 (0#24 ++ s.mem.byteAt ea) s := by
  refine loadsReg_of_withDest h (fun hb => ?_) fun x hx => ?_
  · rw [Memory.readByte_eq_ok.2 ⟨backedBytes_one.1 hb, rfl⟩, ← extendByte_eq_append]
  · obtain ⟨rfl, hunbacked⟩ := firstUnbackedByte_one.1 hx
    rw [Memory.readByte_eq_error.2 ⟨hunbacked, rfl⟩]

end Destination

/-! ### Instructions that store -/

/-- A new memory leaves the registers, INT and the line as they are. -/
theorem sameCore_setMem (s : State) (m : Memory) : sameCore s (s.setMem m) :=
  ⟨s.readReg_setMem m, s.setMem_int m, s.setMem_line m⟩

/-- A word put at `p` leaves every byte but the four from `p` on as it is (R56). -/
theorem changesOnlyBytes_putWord (s : State) (p v : Word) : changesOnlyBytes p 4 s (s.setMem (s.mem.putWord p v)) := by
  refine ⟨rfl, fun x hx => ?_⟩
  have h0 : x ≠ p := by simpa using hx 0 (by decide)
  have h1 : x ≠ p + 1#32 := hx 1 (by decide)
  have h2 : x ≠ p + 2#32 := hx 2 (by decide)
  have h3 : x ≠ p + 3#32 := hx 3 (by decide)
  simp [Memory.byteAt_putWord, h0, h1, h2, h3]

/-- A byte put at `p` leaves every other byte as it is (R56, R57). -/
theorem changesOnlyBytes_setByte (s : State) (p : Word) (v : Byte) :
    changesOnlyBytes p 1 s (s.setMem (s.mem.setByte p v)) := by
  refine ⟨rfl, fun x hx => ?_⟩
  have h0 : x ≠ p := by simpa using hx 0 (by decide)
  simp [Memory.byteAt_setByte, h0]

section Stores

variable {i : Instr} {ea v : Word} {s : State}

/-- An instruction whose meaning is `storeWord` stores its word at its address and does nothing else (R112, R116). -/
theorem storesWord_of_storeWord (h : exec i s = storeWord ea v s) : storesWord i ea v s := by
  refine ⟨fun hb => ⟨s.setMem (s.mem.putWord ea v), ?_, sameCore_setMem _ _, Memory.wordAt_putWord _ _ _,
    changesOnlyBytes_putWord _ _ _⟩, fun x hx => ?_⟩
  · exact h.trans (storeWord_eq_next.2
      ⟨_, Memory.writeWord_eq_ok.2 ⟨Memory.forall_wordAddrs_isBacked.2 hb, rfl⟩, rfl⟩)
  · exact h.trans (storeWord_eq_fault.2 (Memory.writeWord_eq_error.2 ⟨x, Memory.firstUnbacked_wordAddrs.2 hx, rfl⟩))

/-- An instruction whose meaning is `storeByte` stores the low byte at its address and does nothing else (R114,
R118). -/
theorem storesByte_of_storeByte (h : exec i s = storeByte ea v s) : storesByte i ea (v.extractLsb' 0 8) s := by
  refine ⟨fun hb => ⟨s.setMem (s.mem.setByte ea (lowByte v)), ?_, sameCore_setMem _ _, ?_,
    changesOnlyBytes_setByte _ _ _⟩, fun x hx => ?_⟩
  · exact h.trans (storeByte_eq_next.2 ⟨_, Memory.writeByte_eq_ok.2 ⟨backedBytes_one.1 hb, rfl⟩, rfl⟩)
  · simp [Memory.byteAt_setByte, lowByte]
  · obtain ⟨rfl, hunbacked⟩ := firstUnbackedByte_one.1 hx
    exact h.trans (storeByte_eq_fault.2 (Memory.writeByte_eq_error.2 ⟨hunbacked, rfl⟩))

end Stores

/-! ### The statements

Each instruction's arm of `exec` is the shared operation at the rule's address by unfolding. -/

/-- Settles O3: the words decode by their OP and fields, and both meanings are `storeWord` at the rule's address. -/
theorem wordStores : Obligations.WordStores :=
  ⟨fun _ hop => decodeWord_eq_ok_iff_fields.2 ⟨hop.symm, rfl, rfl, rfl⟩,
    fun _ hop => decodeWord_eq_ok_iff_fields.2 ⟨hop.symm, rfl, rfl, rfl⟩,
    fun _ _ _ _ => storesWord_of_storeWord rfl, fun _ _ _ _ => storesWord_of_storeWord rfl⟩

/-- Settles O4: the words decode by their OP and fields, and both meanings are `storeByte` at the rule's address. -/
theorem byteStores : Obligations.ByteStores :=
  ⟨fun _ hop => decodeWord_eq_ok_iff_fields.2 ⟨hop.symm, rfl, rfl, rfl⟩,
    fun _ hop => decodeWord_eq_ok_iff_fields.2 ⟨hop.symm, rfl, rfl, rfl⟩,
    fun _ _ _ _ => storesByte_of_storeByte rfl, fun _ _ _ _ => storesByte_of_storeByte rfl⟩

/-- Settles O1: the words decode by their OP and fields, and both meanings are `loadWord` at the rule's address. -/
theorem wordLoads : Obligations.WordLoads :=
  ⟨fun _ hop => decodeWord_eq_ok_iff_fields.2 ⟨hop.symm, rfl, rfl, rfl⟩,
    fun _ hop => decodeWord_eq_ok_iff_fields.2 ⟨hop.symm, rfl, rfl, rfl⟩,
    fun _ _ _ _ => loadsReg_of_loadWord rfl, fun _ _ _ _ => loadsReg_of_loadWord rfl⟩

/-- Settles O2: the words decode by their OP and fields, and both meanings are `loadByte` at the rule's address. -/
theorem byteLoads : Obligations.ByteLoads :=
  ⟨fun _ hop => decodeWord_eq_ok_iff_fields.2 ⟨hop.symm, rfl, rfl, rfl⟩,
    fun _ hop => decodeWord_eq_ok_iff_fields.2 ⟨hop.symm, rfl, rfl, rfl⟩,
    fun _ _ _ _ => loadsReg_of_loadByte rfl, fun _ _ _ _ => loadsReg_of_loadByte rfl⟩

/-- Settles O5: the words decode by their OP and fields, and the meaning is `setDest` of the constant. -/
theorem loadConstant : Obligations.LoadConstant :=
  ⟨fun _ hop => decodeWord_eq_ok_iff_fields.2 ⟨hop.symm, rfl, rfl⟩, fun _ _ _ => writesReg_of_setDest rfl⟩

end Sys2Proof.Machine

/-! SUPPORT. What the operations on words do, in numbers and in bits (41_arithmetic.md R130, R146), and with it what the
arithmetic and logic instructions do: all but CMP and a division by zero are `setDest` of their operation's value. -/

namespace Sys2Proof.Machine

/-! ### Sums, differences, products and quotients of words -/

section Words

variable (p q : Word)

/-- The difference of two words is that of their unsigned values, modulo 2^32 (R134). -/
theorem sub_eq_ofInt_toNat : p - q = BitVec.ofInt 32 (p.toNat - q.toNat : Int) := by
  simp [Int.sub_eq_add_neg, BitVec.ofInt_add, BitVec.ofInt_neg, BitVec.sub_eq_add_neg]

/-- The product of two words is that of their unsigned values, modulo 2^32 (R135). -/
theorem mul_eq_ofNat_toNat : p * q = BitVec.ofNat 32 (p.toNat * q.toNat) := by
  simp [BitVec.ofNat_mul]

/-- The product of two words is that of their signed values, modulo 2^32 (R135). -/
theorem mul_eq_ofInt_toInt : p * q = BitVec.ofInt 32 (p.toInt * q.toInt) := by
  rw [BitVec.ofInt_mul, BitVec.ofInt_toInt, BitVec.ofInt_toInt]

/-- The quotient is signed and rounded toward zero (R136). -/
theorem quotient_eq : quotient p q = BitVec.ofInt 32 (p.toInt.tdiv q.toInt) := rfl

/-- What the quotient leaves of the dividend is the signed remainder, also where the quotient wraps. -/
theorem sub_quotient_mul_eq_srem : p - quotient p q * q = p.srem q := by
  have hdivision : BitVec.ofInt 32 (p.toInt.tmod q.toInt + p.toInt.tdiv q.toInt * q.toInt) = p := by
    rw [Int.tmod_add_tdiv_mul, BitVec.ofInt_toInt]
  rw [BitVec.ofInt_add, BitVec.ofInt_mul, BitVec.ofInt_toInt, ← BitVec.toInt_srem, BitVec.ofInt_toInt,
    ← quotient_eq] at hdivision
  exact (BitVec.eq_sub_iff_add_eq.2 hdivision).symm

end Words

/-! ### Shifts and rotates of words -/

section Shifts

variable (v : Word) {n k : Nat}

/-- A left shift multiplies by a power of two, modulo 2^32 (R143). -/
theorem shiftLeft_eq_ofNat (n : Nat) : shiftLeft v n = BitVec.ofNat 32 (v.toNat * 2 ^ n) := by
  apply BitVec.eq_of_toNat_eq
  rw [shiftLeft, BitVec.toNat_shiftLeft, Nat.shiftLeft_eq, BitVec.toNat_ofNat]

/-- A right shift is the unsigned quotient by a power of two (R144). -/
theorem shiftRight_eq_ofNat (n : Nat) : shiftRight v n = BitVec.ofNat 32 (v.toNat / 2 ^ n) := by
  have hlogical : shiftRight v n = v >>> n := rfl
  have hlt : v.toNat / 2 ^ n < 2 ^ 32 := (Nat.div_le_self ..).trans_lt v.isLt
  apply BitVec.eq_of_toNat_eq
  rw [hlogical, BitVec.toNat_ushiftRight, Nat.shiftRight_eq_div_pow, BitVec.toNat_ofNat, Nat.mod_eq_of_lt hlt]

/-- The model's rotate is the library's for the counts of R146. -/
theorem rotateLeft_eq (hn : n < 32) : rotateLeft v n = v.rotateLeft n := by
  rw [BitVec.rotateLeft_def, Nat.mod_eq_of_lt hn]
  by_cases h0 : n = 0
  · simp [rotateLeft, h0, BitVec.ushiftRight_eq_zero]
  · simp [rotateLeft, h0]

/-- A rotate right is the rotate left that completes it to a full turn (R142). -/
theorem rotateRight_eq_rotateLeft (h1 : 1 ≤ n) (h31 : n ≤ 31) : rotateRight v n = rotateLeft v (32 - n) := by
  have hright : n ≠ 0 := by omega
  have hleft : 32 - n ≠ 0 := by omega
  have hback : 32 - (32 - n) = n := by omega
  simp [rotateRight, rotateLeft, hright, hleft, hback, BitVec.or_comm]

/-- Bit `k` moves up by the count, around the word (R141). -/
theorem getLsbD_rotateLeft_add_mod (hn : n < 32) (hk : k < 32) :
    (rotateLeft v n).getLsbD ((k + n) % 32) = v.getLsbD k := by
  rw [rotateLeft_eq v hn, BitVec.getLsbD_rotateLeft, Nat.mod_eq_of_lt hn]
  by_cases hwrap : k + n < 32
  · simp [Nat.mod_eq_of_lt hwrap, hwrap]
  · have hplace : (k + n) % 32 = k + n - 32 := by omega
    have hfrom : 32 - n + (k + n - 32) = k := by omega
    have hlow : k + n - 32 < n := by omega
    simp [hplace, hfrom, hlow]

/-- Place `k` gets the bit that stands the count above it, around the word (R142). -/
theorem getLsbD_rotateRight (hn : n < 32) (hk : k < 32) :
    (rotateRight v n).getLsbD k = v.getLsbD ((k + n) % 32) := by
  by_cases h0 : n = 0
  · simp [h0, rotateRight, Nat.mod_eq_of_lt hk]
  · have hturn : ((k + n) % 32 + (32 - n)) % 32 = k := by omega
    have hleft := getLsbD_rotateLeft_add_mod v (n := 32 - n) (k := (k + n) % 32) (by omega) (by omega)
    rwa [hturn, ← rotateRight_eq_rotateLeft v (by omega) (by omega)] at hleft

/-- ROR undoes ROL: every bit comes back to its place (R141, R142). -/
theorem rotateRight_rotateLeft (hn : n < 32) : rotateRight (rotateLeft v n) n = v :=
  BitVec.eq_of_getLsbD_eq fun k hk => by
    rw [getLsbD_rotateRight _ hn hk, getLsbD_rotateLeft_add_mod v hn hk]

end Shifts

/-! ### Instructions that write a computed value -/

section Meanings

variable {i : Instr} {a b c : Reg} {v w : Word} {s : State}

/-- `writesReg_of_setDest` with the value in the terms of the statement. -/
theorem writesReg_of_setDest_of_eq (h : exec i s = setDest a v s) (hv : v = w) : writesReg i a w s :=
  writesReg_of_setDest (hv ▸ h)

/-- An instruction whose meaning is `setDest` goes on in either mode, unless it writes R12 (R38). -/
theorem exec_eq_next_of_setDest (h : exec i s = setDest a v s) (ha : a ≠ .r12) :
    exec i s = .next (s.writeReg a v) :=
  h.trans (setDest_eq_next.2 ⟨State.mayWrite_of_ne_r12 ha, rfl⟩)

/-- A division by another value than zero writes the quotient (R136). -/
theorem execDiv_of_ne_zero (hc : s.readReg c ≠ 0#32) :
    execDiv a b c s = setDest a (quotient (s.readReg b) (s.readReg c)) s := by
  rw [execDiv, if_neg hc, setDest]

/-- A division by zero stops, after the mode check (R136, R191). -/
theorem execDiv_of_eq_zero (hc : s.readReg c = 0#32) :
    execDiv a b c s = withDest a s (.fault (.divideByZero (s.pc - 4#32))) := by
  rw [execDiv, if_pos hc, State.instrAddr]

end Meanings

/-! ### The statements -/

/-- Settles O6: the word decodes by its OP and fields; CMP writes SW alone, and of SW the two bits that
`getLsbD_compareFlags` names. -/
theorem compareSetsNAndZ : Obligations.CompareSetsNAndZ := by
  refine ⟨fun _ hop => decodeWord_eq_ok_iff_fields.2 ⟨hop.symm, rfl, rfl⟩, fun a b s => ?_⟩
  refine ⟨_, rfl, ?_, ?_, fun k hN hZ => ?_, fun r hr => ?_, rfl, rfl, rfl⟩
  · exact getLsbD_compareFlags ..
  · rw [State.flagZ, State.setSw_sw, getLsbD_compareFlags, if_pos rfl, decide_eq_decide, BitVec.toInt_inj]
  · rw [State.setSw_sw, getLsbD_compareFlags, if_neg hZ, if_neg hN]
  · rw [State.readReg_setSw, if_neg hr]

/-- Settles O9: the word decodes by its OP and fields, and the product of the words is both products modulo 2^32. -/
theorem multiplyKeepsLowWord : Obligations.MultiplyKeepsLowWord :=
  ⟨fun _ hop => decodeWord_eq_ok_iff_fields.2 ⟨hop.symm, rfl, rfl, rfl⟩, fun _ _ _ _ =>
    ⟨writesReg_of_setDest_of_eq rfl (mul_eq_ofNat_toNat ..), writesReg_of_setDest_of_eq rfl (mul_eq_ofInt_toInt ..)⟩⟩

/-- Settles O10: the word decodes by its OP and fields; a nonzero divisor makes the meaning `setDest` of the quotient, a
zero one a fault behind the mode check. -/
theorem divideTruncates : Obligations.DivideTruncates := by
  refine ⟨fun _ hop => decodeWord_eq_ok_iff_fields.2 ⟨hop.symm, rfl, rfl, rfl⟩,
    fun a b c s => ⟨fun hc => ?_, fun hc => ?_⟩⟩
  · exact writesReg_of_setDest_of_eq (execDiv_of_ne_zero hc) (quotient_eq ..)
  · have hexec : exec (.div a b c) s = withDest a s (.fault (.divideByZero (s.pc - 4#32))) := execDiv_of_eq_zero hc
    exact ⟨fun hsw => hexec.trans (withDest_of_userWriteSW hsw),
      fun hsw => hexec.trans (withDest_of_not_userWriteSW hsw)⟩

/-- Settles O11: the words decode by their OP and fields, and the values are the bitwise operations on words. -/
theorem logicIsBitwise : Obligations.LogicIsBitwise :=
  ⟨fun _ hop => decodeWord_eq_ok_iff_fields.2 ⟨hop.symm, rfl, rfl, rfl⟩,
    fun _ hop => decodeWord_eq_ok_iff_fields.2 ⟨hop.symm, rfl, rfl, rfl⟩,
    fun _ hop => decodeWord_eq_ok_iff_fields.2 ⟨hop.symm, rfl, rfl, rfl⟩, fun _ _ _ _ =>
    ⟨⟨_, fun _ _ => BitVec.getLsbD_and, writesReg_of_setDest rfl⟩,
      ⟨_, fun _ _ => BitVec.getLsbD_or, writesReg_of_setDest rfl⟩,
      ⟨_, fun _ _ => BitVec.getLsbD_xor, writesReg_of_setDest rfl⟩⟩⟩

/-- Settles O13: the words decode by their OP and fields, and the values are the rotated words. -/
theorem rotatesMoveEveryBit : Obligations.RotatesMoveEveryBit :=
  ⟨fun _ hop => decodeWord_eq_ok_iff_fields.2 ⟨hop.symm, rfl, rfl, rfl⟩,
    fun _ hop => decodeWord_eq_ok_iff_fields.2 ⟨hop.symm, rfl, rfl, rfl⟩, fun _ _ _ _ hn =>
    ⟨⟨_, fun _ hk => getLsbD_rotateLeft_add_mod _ hn hk, writesReg_of_setDest rfl⟩,
      ⟨_, fun _ hk => getLsbD_rotateRight _ hn hk, writesReg_of_setDest rfl⟩⟩⟩

/-- Settles O14: the words decode by their OP and fields, and a shift is a product with, or a quotient by, a power of
two. -/
theorem shiftsAreLogical : Obligations.ShiftsAreLogical :=
  ⟨fun _ hop => decodeWord_eq_ok_iff_fields.2 ⟨hop.symm, rfl, rfl, rfl⟩,
    fun _ hop => decodeWord_eq_ok_iff_fields.2 ⟨hop.symm, rfl, rfl, rfl⟩, fun _ _ _ _ _ =>
    ⟨writesReg_of_setDest_of_eq rfl (shiftLeft_eq_ofNat ..), writesReg_of_setDest_of_eq rfl (shiftRight_eq_ofNat ..)⟩⟩

/-- Settles O50: the three instructions write R3, R4 and R5 and keep R1 and R2, so R5 gets the dividend less the
quotient times the divisor, which is the signed remainder. -/
theorem remainderByDivMulSub : Obligations.RemainderByDivMulSub := by
  intro s hdivisor
  refine ⟨_, _, _, exec_eq_next_of_setDest (a := .r3) (execDiv_of_ne_zero hdivisor) (by decide),
    exec_eq_next_of_setDest (a := .r4) rfl (by decide), exec_eq_next_of_setDest (a := .r5) rfl (by decide), ?_⟩
  simp (disch := decide) [State.readReg_advance_of_ne_r15, State.readReg_writeReg, sub_quotient_mul_eq_srem,
    BitVec.toInt_srem]

/-- Settles O51: ROR finds in its register the word that ROL left there; and the two operations are equal as functions
of the word. -/
theorem rotatesUndoEachOther : Obligations.RotatesUndoEachOther := by
  refine ⟨fun a b n s hn h0 h12 h15 => ?_, fun a b n s h1 h31 => ?_⟩
  · refine ⟨_, _, exec_eq_next_of_setDest rfl h12, exec_eq_next_of_setDest rfl h12, ?_⟩
    simp [State.readReg_writeReg, State.readReg_advance_of_ne_r15, h0, h15, rotateRight_rotateLeft _ hn]
  · exact congrArg (setDest a · s) (rotateRight_eq_rotateLeft _ h1 h31)

/-- Settles O7: the word decodes by its OP and fields, and the meaning is `setDest` of the register's value. -/
theorem moveCopiesRegister : Obligations.MoveCopiesRegister :=
  ⟨fun _ hop => decodeWord_eq_ok_iff_fields.2 ⟨hop.symm, rfl, rfl⟩, fun _ _ _ => writesReg_of_setDest rfl⟩

/-- Settles O8: the words decode by their OP and fields, and the sum and difference of the words are those of their
unsigned values modulo 2^32. -/
theorem addAndSubWrap : Obligations.AddAndSubWrap :=
  ⟨fun _ hop => decodeWord_eq_ok_iff_fields.2 ⟨hop.symm, rfl, rfl, rfl⟩,
    fun _ hop => decodeWord_eq_ok_iff_fields.2 ⟨hop.symm, rfl, rfl, rfl⟩, fun _ _ _ _ =>
    ⟨writesReg_of_setDest_of_eq rfl (BitVec.add_def ..), writesReg_of_setDest_of_eq rfl (sub_eq_ofInt_toNat ..)⟩⟩

/-- Settles O12: the word decodes by its OP and fields, and the sum is that of the unsigned values modulo 2^32. -/
theorem addConstantWraps : Obligations.AddConstantWraps :=
  ⟨fun _ hop => decodeWord_eq_ok_iff_fields.2 ⟨hop.symm, rfl, rfl, rfl⟩, fun _ _ _ _ =>
    writesReg_of_setDest_of_eq rfl (BitVec.add_def ..)⟩

end Sys2Proof.Machine

/-! SUPPORT. What the jump family does, in the terms of the statements (42_jump.md): the conditions of R161 as
propositions, the shapes `jumpsTo` and `entersInterrupt` proved once for each shared operation, and the instructions
whose meaning is that operation. -/

namespace Sys2Proof.Machine

/-- A word with the OP value of an instruction, and with its operands in the fields, decodes to it (R87, R88). -/
theorem decodeWord_of_opField_eq {ir : Word} {i : Instr} (hop : opField ir = i.opcode) (hi : i.operandsIn ir) :
    decodeWord ir = .ok i :=
  decodeWord_eq_ok_iff_fields.2 ⟨hop.symm, hi⟩

/-! ### The conditions (R161) -/

section Conditions

variable {s : State}

theorem State.condEQ_iff : s.condEQ = true ↔ s.flagZ = true := Iff.rfl

theorem State.condNE_iff : s.condNE = true ↔ s.flagZ = false := by
  rw [State.condNE, Bool.not_eq_true']

theorem State.condLT_iff : s.condLT = true ↔ s.flagN = true ∧ s.flagZ = false := by
  rw [State.condLT, Bool.and_eq_true, Bool.not_eq_true']

theorem State.condGT_iff : s.condGT = true ↔ s.flagN = false ∧ s.flagZ = false := by
  rw [State.condGT, Bool.and_eq_true, Bool.not_eq_true', Bool.not_eq_true']

theorem State.condLE_iff : s.condLE = true ↔ s.flagN = true ∨ s.flagZ = true := by
  rw [State.condLE, Bool.or_eq_true]

theorem State.condGE_iff : s.condGE = true ↔ s.flagN = false ∨ s.flagZ = true := by
  rw [State.condGE, Bool.or_eq_true, Bool.not_eq_true']

end Conditions

/-! ### Instructions that write `pc` alone -/

section Jumps

variable {i : Instr} {c x : Word} {s : State}

/-- A write of `pc` is a write of R15, and changes nothing else (R26, R31). -/
theorem changesOnlyReg_setPc (x : Word) (s : State) : changesOnlyReg .r15 x s (s.setPc x) :=
  changesOnlyReg_writeReg .r15 x s

/-- An instruction whose meaning is a write of `pc` jumps (R168, R171). -/
theorem jumpsTo_of_setPc (h : exec i s = .next (s.setPc x)) : jumpsTo i x s :=
  ⟨_, h, changesOnlyReg_setPc x s⟩

/-- An instruction whose meaning is `jumpIf` goes on at its target where its condition holds, and elsewhere at the
`pc` it has (R160, R161). -/
theorem jumpsTo_of_jumpIf {cond : Bool} {p : Prop} [Decidable p] (h : exec i s = jumpIf cond c s)
    (hcond : cond = true ↔ p) : jumpsTo i (if p then s.pc + c else s.pc) s := by
  by_cases hp : p
  · have htaken : jumpIf cond c s = .next (s.setPc (s.pc + c)) := by
      rw [jumpIf, if_pos (hcond.2 hp), jumpTarget]
    rw [if_pos hp]
    exact jumpsTo_of_setPc (h.trans htaken)
  · have hnotTaken : jumpIf cond c s = .next (s.setPc s.pc) := by
      rw [jumpIf, if_neg (mt hcond.1 hp)]
      rfl
    rw [if_neg hp]
    exact jumpsTo_of_setPc (h.trans hnotTaken)

end Jumps

/-! ### Instructions and steps that enter an interrupt -/

section Entry

variable {s : State}

/-- Taking an interrupt is the entry sequence of the statements (R195 to R198). -/
theorem entersInterrupt_enterInterrupt (x : Word) (s : State) : entersInterrupt x s (enterInterrupt x s) :=
  ⟨readReg_enterInterrupt x s, enterInterrupt_int x s, enterInterrupt_mem x s⟩

/-- A boundary that is passed shows in no register. -/
@[simp] theorem State.readReg_passBoundary (s : State) (r : Reg) : s.passBoundary.readReg r = s.readReg r :=
  s.readReg_setLine _ r

/-- A request that is taken enters its interrupt from the state before the boundary (R194, R196, R201). -/
theorem exists_step_entersInterrupt_of_takenRequest {addr : Word} (h : s.takenRequest = some addr) :
    ∃ u, step s = .next u ∧ entersInterrupt addr s u := by
  refine ⟨_, step_of_takenRequest h, fun r => ?_, rfl, rfl⟩
  rw [readReg_enterInterrupt, State.passBoundary_pc, State.readReg_passBoundary]

/-- A software interrupt is disabled by any one of I = 0, T = 0 and INT = 1 (R192, R212). -/
theorem State.not_swiEnabled_iff :
    ¬s.swiEnabled = true ↔ s.flagI = false ∨ s.flagT = false ∨ s.int = true := by
  rw [State.swiEnabled_iff, not_and_or, not_and_or, Bool.not_eq_true, Bool.not_eq_true, Bool.not_eq_false]

end Entry

/-! ### The statements -/

/-- Settles O15: the words decode by their OP and constant, and each meaning is `jumpIf` with the condition of its row
of R161's table. -/
theorem conditionalJumpsFollowTable : Obligations.ConditionalJumpsFollowTable := by
  refine ⟨fun _ hop => decodeWord_of_opField_eq hop rfl, fun _ hop => decodeWord_of_opField_eq hop rfl,
    fun _ hop => decodeWord_of_opField_eq hop rfl, fun _ hop => decodeWord_of_opField_eq hop rfl,
    fun _ hop => decodeWord_of_opField_eq hop rfl, fun _ hop => decodeWord_of_opField_eq hop rfl, fun c s => ?_⟩
  exact ⟨jumpsTo_of_jumpIf rfl State.condEQ_iff, jumpsTo_of_jumpIf rfl State.condNE_iff,
    jumpsTo_of_jumpIf rfl State.condLT_iff, jumpsTo_of_jumpIf rfl State.condGT_iff,
    jumpsTo_of_jumpIf rfl State.condLE_iff, jumpsTo_of_jumpIf rfl State.condGE_iff⟩

/-- Settles O16: the word decodes by its OP and constant, and the meaning is a write of `pc`. -/
theorem jumpIsRelative : Obligations.JumpIsRelative :=
  ⟨fun _ hop => decodeWord_of_opField_eq hop rfl, fun _ _ => jumpsTo_of_setPc rfl⟩

/-- Settles O17: the word decodes by its OP and constant; CALL writes R14 and then `pc`, both from the `pc` it found. -/
theorem callLinksAndJumps : Obligations.CallLinksAndJumps := by
  refine ⟨fun _ hop => decodeWord_of_opField_eq hop rfl, fun c s => ⟨_, rfl, fun r => ?_, rfl, rfl, rfl⟩⟩
  rw [State.readReg_setPc, State.readReg_writeReg, jumpTarget, if_neg (by decide : Reg.r14 ≠ .r0)]

/-- Settles O18: the word decodes by its OP alone, and the meaning is a write of `pc`. -/
theorem returnJumpsToLink : Obligations.ReturnJumpsToLink :=
  ⟨fun _ hop => decodeWord_of_opField_eq hop trivial, fun _ => jumpsTo_of_setPc rfl⟩

/-- Settles O19: the word decodes by its OP and constant; an enabled SWI is the interrupt entry, a disabled one does
nothing. -/
theorem softwareInterruptEntry : Obligations.SoftwareInterruptEntry := by
  refine ⟨fun _ hop => decodeWord_of_opField_eq hop rfl, fun c s => ⟨fun henabled => ?_, fun hdisabled => ?_⟩⟩
  · exact ⟨enterInterrupt c s, execSwi_of_swiEnabled c (State.swiEnabled_iff.2 henabled),
      entersInterrupt_enterInterrupt c s, enterInterrupt_line c s⟩
  · exact execSwi_of_not_swiEnabled c (State.not_swiEnabled_iff.2 hdisabled)

/-- Settles O20: the word decodes by its OP alone, and the meaning is the return from an interrupt, which leaves INT = 0
and SW and the line as they are, so that a request presented next is taken if I = 1. -/
theorem returnFromInterruptClearsInt : Obligations.ReturnFromInterruptClearsInt := by
  refine ⟨fun _ hop => decodeWord_of_opField_eq hop trivial, fun s => ⟨returnFromInterrupt s, rfl,
    readReg_returnFromInterrupt s, returnFromInterrupt_int s, returnFromInterrupt_mem s, returnFromInterrupt_line s,
    fun addr hI hline => ?_⟩⟩
  have htaken : (returnFromInterrupt s).takenRequest = some addr := State.takenRequest_eq_some.2 ⟨hI, rfl, hline⟩
  exact exists_step_entersInterrupt_of_takenRequest htaken

end Sys2Proof.Machine

/-! SUPPORT. What the stack instructions do, in the terms of the statements (43_stack.md). A push is the store at R13
after SP is lowered and a pop is the load at R13 before SP is raised, so the shapes `storesWord`, `storesByte` and
`loadsReg` of the stores and loads say the rest. -/

namespace Sys2Proof.Machine

/-! ### Pushes -/

section Pushes

variable {s t : State} {sp n : Word}

/-- PUSH lowers SP and then does what `ST Ra, [R13+0]` does (R181). -/
theorem exec_push_eq_exec_st (a : Reg) (s : State) : exec (.push a) s = exec (.st a .r13 0#32) (s.lowerSp 4#32) := by
  simp only [exec, execPush, execSt, eaConst, BitVec.add_zero]

/-- PUSHB lowers SP and then does what `STB Ra, [R13+0]` does (R183). -/
theorem exec_pushb_eq_exec_stb (a : Reg) (s : State) :
    exec (.pushb a) s = exec (.stb a .r13 0#32) (s.lowerSp 1#32) := by
  simp only [exec, execPushb, execStb, eaConst, BitVec.add_zero]

/-- A register of a state with lowered SP, with the lowered SP itself for R13 (R180). -/
theorem State.readReg_lowerSp_of_eq (hsp : sp = s.readReg .r13 - n) (r : Reg) :
    (s.lowerSp n).readReg r = if r = .r13 then sp else s.readReg r := by
  rw [State.readReg_lowerSp, hsp]

/-- The address R13+0 is the lowered SP (R110, R180). -/
theorem eaConst_r13_lowerSp (hsp : sp = s.readReg .r13 - n) : eaConst (s.lowerSp n) .r13 0#32 = sp := by
  rw [eaConst, State.readReg_lowerSp_of_eq hsp, if_pos rfl, BitVec.add_zero]

/-- The store of a push finds its address in the lowered SP, and for R13 its value too (R181). -/
theorem storesWord_st_lowerSp (hsp : sp = s.readReg .r13 - n) (a : Reg) :
    storesWord (.st a .r13 0#32) sp (if a = .r13 then sp else s.readReg a) (s.lowerSp n) := by
  rw [← State.readReg_lowerSp_of_eq hsp, ← eaConst_r13_lowerSp hsp]
  exact storesWord_of_storeWord rfl

/-- The store of a byte push finds its address in the lowered SP, and for R13 its value too (R183). -/
theorem storesByte_stb_lowerSp (hsp : sp = s.readReg .r13 - n) (a : Reg) :
    storesByte (.stb a .r13 0#32) sp ((if a = .r13 then sp else s.readReg a).extractLsb' 0 8) (s.lowerSp n) := by
  rw [← State.readReg_lowerSp_of_eq hsp, ← eaConst_r13_lowerSp hsp]
  exact storesByte_of_storeByte rfl

/-- What keeps the core of the state with lowered SP changes R13 alone of the core (R180). -/
theorem sameCore.readReg_of_lowerSp (h : sameCore (s.lowerSp n) t) (hsp : sp = s.readReg .r13 - n) (r : Reg) :
    t.readReg r = if r = .r13 then sp else s.readReg r := by
  obtain ⟨hregs, -, -⟩ := h
  rw [hregs, State.readReg_lowerSp_of_eq hsp]

/-- PUSH goes on exactly at four backed bytes below SP, and puts the register's word there (R181). -/
theorem exec_push_eq_next {a : Reg} (ha : a ≠ .r13) :
    exec (.push a) s = .next t ↔
      backedBytes s.mem (s.readReg .r13 - 4#32) 4 ∧
        t = (s.lowerSp 4#32).setMem (s.mem.putWord (s.readReg .r13 - 4#32) (s.readReg a)) := by
  rw [exec_push_eq_exec_st, exec_st_eq_next, BitVec.add_zero, State.readReg_lowerSp, State.readReg_lowerSp,
    if_pos rfl, if_neg ha, State.lowerSp_mem]

end Pushes

/-! ### Pops -/

/-- `i` at `s` loads `v` from the `n` bytes at SP into `a` and then adds `n` to SP, and nothing else: `loadsReg` at SP
with the rule's last statement after it (R180, R182, R184). -/
def popsReg (i : Instr) (a : Reg) (n : Nat) (v : Word) (s : State) : Prop :=
  (a = .r12 ∧ s.superMode = false → exec i s = .fault (.userWriteSW (s.pc - 4#32))) ∧
    (¬(a = .r12 ∧ s.superMode = false) →
      (backedBytes s.mem (s.readReg .r13) n → ∃ t, exec i s = .next t ∧
        (∀ r, t.readReg r =
          if r = .r13 then (if a = .r13 then v else s.readReg .r13) + BitVec.ofNat 32 n
          else if r = a then (if a = .r0 then 0#32 else v) else s.readReg r) ∧
        t.int = s.int ∧ t.mem = s.mem ∧ t.line = s.line) ∧
      ∀ x, firstUnbackedByte s.mem (s.readReg .r13) n x → exec i s = .fault (.memUnmapped x))

section Pops

variable {i j : Instr} {a : Reg} {n : Nat} {v : Word} {s t : State}

/-- POP does what `LD Ra, [R13+0]` does and then raises SP (R182). -/
theorem exec_pop_eq_mapNext (a : Reg) (s : State) :
    exec (.pop a) s = mapNext (·.raiseSp 4#32) (exec (.ld a .r13 0#32) s) := by
  simp only [exec, execPop, execLd, eaConst, loadWord, withDest, BitVec.add_zero]
  cases s.mem.readWord (s.readReg .r13) <;> cases s.mayWrite a <;> rfl

/-- POPB does what `LDB Ra, [R13+0]` does and then raises SP (R184). -/
theorem exec_popb_eq_mapNext (a : Reg) (s : State) :
    exec (.popb a) s = mapNext (·.raiseSp 1#32) (exec (.ldb a .r13 0#32) s) := by
  simp only [exec, execPopb, execLdb, eaConst, loadByte, withDest, BitVec.add_zero]
  cases s.mem.readByte (s.readReg .r13) <;> cases s.mayWrite a <;> rfl

/-- SP is raised from what the load left in it: the loaded word for R13 (R182). -/
theorem changesOnlyReg.readReg_raiseSp (h : changesOnlyReg a v s t) (w : Word) (r : Reg) :
    (t.raiseSp w).readReg r =
      if r = .r13 then (if a = .r13 then v else s.readReg .r13) + w
      else if r = a then (if a = .r0 then 0#32 else v) else s.readReg r := by
  obtain ⟨hregs, -, -, -⟩ := h
  rw [State.readReg_raiseSp, hregs, hregs]
  by_cases ha : a = .r13
  · simp [ha]
  · simp [ha, Ne.symm ha]

/-- A load at SP with SP raised after it is a pop: the faults are the load's. -/
theorem popsReg_of_loadsReg (hexec : exec i s = mapNext (·.raiseSp (BitVec.ofNat 32 n)) (exec j s))
    (hload : loadsReg j a (s.readReg .r13) n v s) : popsReg i a n v s := by
  obtain ⟨hmode, haccess⟩ := hload
  refine ⟨fun hsw => by rw [hexec, hmode hsw]; rfl, fun hsw => ?_⟩
  obtain ⟨hnext, hfault⟩ := haccess hsw
  refine ⟨fun hb => ?_, fun x hx => by rw [hexec, hfault x hx]; rfl⟩
  obtain ⟨t, ht, hchanges⟩ := hnext hb
  have ⟨_, hint, hmem, hline⟩ := hchanges
  exact ⟨t.raiseSp (BitVec.ofNat 32 n), by rw [hexec, ht]; rfl, hchanges.readReg_raiseSp _, hint, hmem, hline⟩

/-- POP pops the word at SP (R182). -/
theorem popsReg_pop (a : Reg) (s : State) : popsReg (.pop a) a 4 (wordAt s.mem (s.readReg .r13)) s := by
  have hload : loadsReg (.ld a .r13 0#32) a (s.readReg .r13 + 0#32) 4 (wordAt s.mem (s.readReg .r13 + 0#32)) s :=
    loadsReg_of_loadWord rfl
  rw [BitVec.add_zero] at hload
  exact popsReg_of_loadsReg (exec_pop_eq_mapNext a s) hload

/-- POPB pops the byte at SP, with zeros above it (R184). -/
theorem popsReg_popb (a : Reg) (s : State) : popsReg (.popb a) a 1 (0#24 ++ s.mem.byteAt (s.readReg .r13)) s := by
  have hload : loadsReg (.ldb a .r13 0#32) a (s.readReg .r13 + 0#32) 1
      (0#24 ++ s.mem.byteAt (s.readReg .r13 + 0#32)) s :=
    loadsReg_of_loadByte rfl
  rw [BitVec.add_zero] at hload
  exact popsReg_of_loadsReg (exec_popb_eq_mapNext a s) hload

end Pops

/-! ### The statements -/

/-- Settles O21: the word decodes by its OP and register, and PUSH is the word store at the lowered SP. -/
theorem pushWordStoresBelow : Obligations.PushWordStoresBelow := by
  refine ⟨fun _ hop => decodeWord_of_opField_eq hop rfl, fun a s sp hsp => ?_⟩
  obtain ⟨hstore, hfault⟩ := storesWord_st_lowerSp hsp a
  rw [exec_push_eq_exec_st]
  refine ⟨fun hb => ?_, hfault⟩
  obtain ⟨t, ht, hcore, hword, hbytes⟩ := hstore hb
  have ⟨_, hint, hline⟩ := hcore
  exact ⟨t, ht, hcore.readReg_of_lowerSp hsp, hint, hline, hword, hbytes⟩

/-- Settles O22: the word decodes by its OP and register, and PUSHB is the byte store at the lowered SP. -/
theorem pushByteStoresBelow : Obligations.PushByteStoresBelow := by
  refine ⟨fun _ hop => decodeWord_of_opField_eq hop rfl, fun a s sp hsp => ?_⟩
  obtain ⟨hstore, hfault⟩ := storesByte_stb_lowerSp hsp a
  rw [exec_pushb_eq_exec_stb]
  refine ⟨fun hb => ?_, hfault⟩
  obtain ⟨t, ht, hcore, hbyte, hbytes⟩ := hstore hb
  have ⟨_, hint, hline⟩ := hcore
  exact ⟨t, ht, hcore.readReg_of_lowerSp hsp, hint, hline, hbyte, hbytes⟩

/-- Settles O23: the word decodes by its OP and register, and POP is the word load at SP with SP raised after it. -/
theorem popWordLoadsAndMovesSp : Obligations.PopWordLoadsAndMovesSp := by
  refine ⟨fun _ hop => decodeWord_of_opField_eq hop rfl, fun a s v hv => ?_⟩
  subst hv
  exact popsReg_pop a s

/-- Settles O24: the word decodes by its OP and register, and POPB is the byte load at SP with SP raised after it. -/
theorem popByteLoadsAndMovesSp : Obligations.PopByteLoadsAndMovesSp := by
  refine ⟨fun _ hop => decodeWord_of_opField_eq hop rfl, fun a s v hv => ?_⟩
  subst hv
  exact popsReg_popb a s

/-- Settles O45: the pop finds SP at the four bytes the push checked and wrote, so it loads the pushed word and raises
SP by what the push took off. -/
theorem popUndoesPush : Obligations.PopUndoesPush := by
  intro a d s t ha h0 h12 h13 hpush
  obtain ⟨hbacked, ht⟩ := (exec_push_eq_next ha).1 hpush
  have hsp : t.advance.readReg .r13 = s.readReg .r13 - 4#32 := by
    rw [State.readReg_advance_of_ne_r15 (by decide), ht, State.readReg_setMem, State.readReg_lowerSp, if_pos rfl]
  have hword : wordAt t.advance.mem (s.readReg .r13 - 4#32) = s.readReg a := by
    rw [State.advance_mem, ht, State.setMem_mem, Memory.wordAt_putWord]
  have hload : backedBytes t.advance.mem (s.readReg .r13 - 4#32) 4 := fun k hk => by
    simpa [ht] using hbacked k hk
  obtain ⟨-, haccess⟩ := popsReg_pop d t.advance
  rw [hsp, hword] at haccess
  obtain ⟨hnext, -⟩ := haccess fun hsw => h12 hsw.1
  obtain ⟨u, hu, hregs, -, hmem, -⟩ := hnext hload
  refine ⟨u, hu, ?_, ?_, hmem⟩
  · rw [hregs, if_neg h13, if_pos rfl, if_neg h0]
  · rw [hregs, if_pos rfl, if_neg h13, BitVec.sub_add_cancel]

end Sys2Proof.Machine

/-! SUPPORT. The modes across a step (60_exceptions.md R205), and what a step does at its boundary with INT = 1, with a
request that is taken and with one that is refused (R192, R193, R202, R212). -/

namespace Sys2Proof.Machine

/-! ### The modes -/

/-- A step that changes M ran an instruction with destination R12 in super mode: M is a bit of SW, and CMP writes other
bits (R34, R205). -/
theorem runs_r12_of_superMode_ne {s t : State} (hstep : step s = .next t) (hchanged : t.superMode ≠ s.superMode) :
    s.superMode = true ∧ ∃ i, s.runs i ∧ i.destination = some .r12 := by
  obtain ⟨i, hruns, ⟨hdest, hsuper⟩ | ⟨-, hk⟩⟩ := statusWordWriters s t Config.swM hstep hchanged
  · exact ⟨hsuper, i, hruns, hdest⟩
  · exact absurd hk (by decide)

/-- LDI into R12 in super mode puts its constant in SW (R119). -/
theorem exec_ldi_r12 {s : State} (c : Word) (hsuper : s.superMode = true) :
    exec (.ldi .r12 c) s = .next (s.setSw c) :=
  setDest_eq_next.2 ⟨by simp [State.mayWrite, hsuper], rfl⟩

/-- Settles O38: a step changes M only from super mode, so a step from user mode keeps it; a write of R12 sets it to bit
M of the value. -/
theorem userModeIsOneWay : Obligations.UserModeIsOneWay := by
  refine ⟨fun s t => runs_r12_of_superMode_ne, fun s t hstep huser => ?_, fun s c hsuper hM => ?_⟩
  · by_contra hsuper
    obtain ⟨hs, -⟩ := runs_r12_of_superMode_ne hstep fun heq => hsuper (heq.trans huser)
    exact absurd huser (by simp [hs])
  · exact ⟨s.setSw c, exec_ldi_r12 c hsuper, hM⟩

/-! ### The boundary and INT -/

/-- A step that takes no interrupt runs the instruction at `pc`, with the entry of this boundary gone (R9, R201). -/
theorem step_of_noEntry {s : State} (hs : s.noEntry) : step s = runInstruction s.passBoundary := by
  simp [step, State.takenRequest_eq_none.2 hs]

/-- A step with INT = 1 that goes on ran an instruction: no hardware interrupt is taken (R193). -/
theorem exists_runs_of_int {s t : State} (hint : s.int = true) (hstep : step s = .next t) :
    ∃ i, s.runs i ∧ exec i s.passBoundary.advance = .next t := by
  rcases step_eq_next.1 hstep with ⟨addr, htaken, -⟩ | hrun
  · obtain ⟨-, hint', -⟩ := State.takenRequest_eq_some.1 htaken
    simp [hint] at hint'
  · exact hrun

/-- With INT = 1 an instruction that goes on leaves INT = 0 exactly if it is IRET: an SWI is disabled (R193, R199,
R212). -/
theorem int_eq_false_iff_of_exec {i : Instr} {s t : State} (hint : s.int = true) (h : exec i s = .next t) :
    t.int = false ↔ i = .iret := by
  constructor
  · intro ht
    rcases (exec_effect h).int_cases with hsame | ⟨c, -, henabled, -⟩ | ⟨hi, -⟩
    · simp [hsame, hint] at ht
    · exact absurd henabled (State.not_swiEnabled_iff.2 (.inr (.inr hint)))
    · exact hi
  · rintro rfl
    cases h
    rfl

/-- Settles O34: the step runs an instruction, of which IRET alone clears INT, and a disabled SWI does nothing. -/
theorem interruptsDoNotNest : Obligations.InterruptsDoNotNest := by
  intro s t hint hstep
  refine ⟨?_, fun c hruns => ?_⟩
  · obtain ⟨i, hruns, hexec⟩ := exists_runs_of_int hint hstep
    exact ⟨i, hruns, int_eq_false_iff_of_exec (s := s.passBoundary.advance) hint hexec⟩
  · have hdisabled : exec (.swi c) s.passBoundary.advance = .next s.passBoundary.advance :=
      execSwi_of_not_swiEnabled c (State.not_swiEnabled_iff.2 (.inr (.inr hint)))
    cases hstep.symm.trans ((step_of_runs hruns).trans hdisabled)
    rfl

/-- Settles O32: the request is taken, and the entry is made from the state with the boundary passed. -/
theorem hardwareInterruptEntry : Obligations.HardwareInterruptEntry := by
  intro s addr hI hint hline
  have htaken : s.takenRequest = some addr := State.takenRequest_eq_some.2 ⟨hI, hint, hline⟩
  obtain ⟨t, hstep, henters⟩ := exists_step_entersInterrupt_of_takenRequest htaken
  refine ⟨t, hstep, henters, ?_⟩
  cases (step_of_takenRequest htaken).symm.trans hstep
  rfl

/-- Settles O33: neither state takes an interrupt, and they are the same once the boundary is passed. -/
theorem refusedRequestIsIgnored : Obligations.RefusedRequestIsIgnored := by
  intro s r rest hline hrefused
  have hs : s.noEntry := hrefused.imp_right .inl
  have hnone : (s.setLine (none :: rest)).noEntry := .inr (.inr (.inr rfl))
  have hpass : s.passBoundary = (s.setLine (none :: rest)).passBoundary := by
    rw [State.passBoundary, hline]
    rfl
  rw [step_of_noEntry hs, step_of_noEntry hnone, hpass]

end Sys2Proof.Machine

/-! SUPPORT. The causes of a fault of an instruction, said once for all of `exec` as its effects are, and what follows
from them for the mode check and for every fault of a step (60_exceptions.md R191, R204). -/

namespace Sys2Proof.Machine

/-! ### The faults of the memory accesses -/

section Access

variable {m : Memory} {p v : Word} {b : Byte} {f : Fault}

theorem Memory.isBacked_of_readWord_eq_error (h : m.readWord p = .error f) :
    ∃ x, f = .memUnmapped x ∧ m.isBacked x = false := by
  obtain ⟨x, hx, rfl⟩ := Memory.readWord_eq_error.1 h
  exact ⟨x, rfl, (Memory.firstUnbacked_eq_some hx).2⟩

theorem Memory.isBacked_of_writeWord_eq_error (h : m.writeWord p v = .error f) :
    ∃ x, f = .memUnmapped x ∧ m.isBacked x = false := by
  obtain ⟨x, hx, rfl⟩ := Memory.writeWord_eq_error.1 h
  exact ⟨x, rfl, (Memory.firstUnbacked_eq_some hx).2⟩

theorem Memory.isBacked_of_readByte_eq_error (h : m.readByte p = .error f) :
    ∃ x, f = .memUnmapped x ∧ m.isBacked x = false := by
  obtain ⟨hp, rfl⟩ := Memory.readByte_eq_error.1 h
  exact ⟨p, rfl, hp⟩

theorem Memory.isBacked_of_writeByte_eq_error (h : m.writeByte p b = .error f) :
    ∃ x, f = .memUnmapped x ∧ m.isBacked x = false := by
  obtain ⟨hp, rfl⟩ := Memory.writeByte_eq_error.1 h
  exact ⟨p, rfl, hp⟩

end Access

/-! ### The causes of the faults of an instruction -/

/-- `FaultCause i s f`: the causes for which instruction `i` can stop at `s`, and the fault `f` each raises (R191).
`exec_faultCause` ties it to `exec`. -/
inductive FaultCause (i : Instr) (s : State) : Fault → Prop where
  /-- the destination is R12 in user mode (R38, R204) -/
  | mode (hdest : i.destination = some .r12) (huser : s.superMode = false) : FaultCause i s (.userWriteSW s.instrAddr)
  /-- a zero divisor (R136) -/
  | divisor (a b c : Reg) (hi : i = .div a b c) (hc : s.readReg c = 0#32) : FaultCause i s (.divideByZero s.instrAddr)
  /-- an address that is not backed (R53) -/
  | unmapped (x : Word) (hx : s.mem.isBacked x = false) : FaultCause i s (.memUnmapped x)

section OfFault

variable {i : Instr} {s : State} {a : Reg} {ea v : Word} {f : Fault}

theorem FaultCause.of_isBacked (h : ∃ x, f = .memUnmapped x ∧ s.mem.isBacked x = false) : FaultCause i s f := by
  obtain ⟨x, rfl, hx⟩ := h
  exact .unmapped x hx

/-- A failed mode check of the destination is a cause (R38). -/
theorem FaultCause.of_mayWrite (hdest : i.destination = some a) (hmay : s.mayWrite a = false) :
    FaultCause i s (.userWriteSW s.instrAddr) := by
  obtain ⟨rfl, huser⟩ := State.mayWrite_eq_false.1 hmay
  exact .mode hdest huser

theorem FaultCause.of_setDest (hdest : i.destination = some a) (h : setDest a v s = .fault f) :
    FaultCause i s f := by
  obtain ⟨hmay, rfl⟩ := setDest_eq_fault.1 h
  exact .of_mayWrite hdest hmay

theorem FaultCause.of_execDiv {b c : Reg} (h : execDiv a b c s = .fault f) : FaultCause (.div a b c) s f := by
  by_cases hc : s.readReg c = 0#32
  · rw [execDiv_of_eq_zero hc] at h
    rcases withDest_eq_fault.1 h with ⟨hmay, rfl⟩ | ⟨-, hzero⟩
    · exact .of_mayWrite rfl hmay
    · cases hzero
      exact .divisor a b c rfl hc
  · rw [execDiv_of_ne_zero hc] at h
    exact .of_setDest rfl h

theorem FaultCause.of_loadWord (hdest : i.destination = some a) (h : loadWord a ea s = .fault f) :
    FaultCause i s f := by
  rcases loadWord_eq_fault.1 h with ⟨hmay, rfl⟩ | ⟨-, hread⟩
  · exact .of_mayWrite hdest hmay
  · exact .of_isBacked (Memory.isBacked_of_readWord_eq_error hread)

theorem FaultCause.of_loadByte (hdest : i.destination = some a) (h : loadByte a ea s = .fault f) :
    FaultCause i s f := by
  rcases loadByte_eq_fault.1 h with ⟨hmay, rfl⟩ | ⟨-, hread⟩
  · exact .of_mayWrite hdest hmay
  · exact .of_isBacked (Memory.isBacked_of_readByte_eq_error hread)

/-- A store faults by an address that is not backed, also where SP was lowered before it (R181). -/
theorem FaultCause.of_storeWord {u : State} (hmem : u.mem = s.mem) (h : storeWord ea v u = .fault f) :
    FaultCause i s f :=
  .of_isBacked (hmem ▸ Memory.isBacked_of_writeWord_eq_error (storeWord_eq_fault.1 h))

theorem FaultCause.of_storeByte {u : State} (hmem : u.mem = s.mem) (h : storeByte ea v u = .fault f) :
    FaultCause i s f :=
  .of_isBacked (hmem ▸ Memory.isBacked_of_writeByte_eq_error (storeByte_eq_fault.1 h))

theorem mapNext_eq_fault {g : State → State} {o : Host.Outcome State Fault Refusal} :
    mapNext g o = .fault f ↔ o = .fault f := by
  cases o <;> simp [mapNext]

/-- A pop faults where the load at SP does (R182, R184). -/
theorem FaultCause.of_pop (h : exec (.pop a) s = .fault f) : FaultCause (.pop a) s f := by
  rw [exec_pop_eq_mapNext, mapNext_eq_fault] at h
  exact .of_loadWord rfl h

theorem FaultCause.of_popb (h : exec (.popb a) s = .fault f) : FaultCause (.popb a) s f := by
  rw [exec_popb_eq_mapNext, mapNext_eq_fault] at h
  exact .of_loadByte rfl h

end OfFault

/-- An instruction that faults has one of the causes. -/
theorem exec_faultCause {i : Instr} {s : State} {f : Fault} (h : exec i s = .fault f) : FaultCause i s f := by
  cases i with
  | ldi | mov | add | sub | mul | and | or | xor | addi | rol | ror | shl | shr => exact .of_setDest rfl h
  | div => exact .of_execDiv h
  | ld | ldr => exact .of_loadWord rfl h
  | ldb | lbr => exact .of_loadByte rfl h
  | st | str => exact .of_storeWord rfl h
  | stb | sbr => exact .of_storeByte rfl h
  | push a => exact .of_storeWord (s.lowerSp_mem 4#32) h
  | pushb a => exact .of_storeByte (s.lowerSp_mem 1#32) h
  | pop => exact .of_pop h
  | popb => exact .of_popb h
  | cmp | jeq | jne | jlt | jgt | jle | jge | jmp | swi | call | ret | iret => cases h

/-- An instruction with a destination makes the mode check before all else (R28, R191, R204). -/
theorem exec_eq_withDest {i : Instr} {a : Reg} (h : i.destination = some a) (s : State) :
    ∃ k, exec i s = withDest a s k := by
  cases i with
  | ld | ldb | ldr | lbr | ldi | mov | add | sub | mul | div | and | or | xor | addi | rol | ror | shl | shr | pop
  | popb =>
    cases h
    exact ⟨_, rfl⟩
  | st | stb | str | sbr | cmp | jeq | jne | jlt | jgt | jle | jge | jmp | swi | call | ret | iret | push | pushb =>
    cases h

/-- While an instruction executes, its address is where the step began (R30). -/
theorem State.instrAddr_advance (s : State) : s.advance.instrAddr = s.pc :=
  BitVec.add_sub_cancel s.pc 4#32

/-! ### The statements -/

/-- Settles O37: the mode check of destination R12 fails in user mode, and it is the one cause of the fault. -/
theorem userModeMayNotSetSw : Obligations.UserModeMayNotSetSw := by
  refine ⟨fun i s huser hdest => ?_, fun i s p hfault => ?_⟩
  · obtain ⟨k, hk⟩ := exec_eq_withDest hdest s
    exact hk.trans (withDest_of_userWriteSW ⟨rfl, huser⟩)
  · cases exec_faultCause hfault with
    | mode hdest huser => exact ⟨huser, hdest⟩

/-- Settles O46: the fetch faults by an address that is not backed, the decoding by an unassigned OP of the word at
`pc`, and the instruction by one of its causes. -/
theorem faultsHaveTheirCause : Obligations.FaultsHaveTheirCause := by
  intro s f hstep
  obtain ⟨-, hfetch | ⟨ir, e, hfetch, hdecode, rfl⟩ | ⟨i, hruns, hexec⟩⟩ := step_eq_fault.1 hstep
  · exact .inl (Memory.isBacked_of_readWord_eq_error hfetch)
  · obtain ⟨-, hword⟩ := Memory.readWord_eq_ok.1 hfetch
    have hir : ir = wordAt s.mem s.pc := hword
    subst hir
    exact .inr (.inl ⟨rfl, decodeWord_eq_error_iff.1 ⟨e, hdecode⟩⟩)
  · have haddr : s.passBoundary.advance.instrAddr = s.pc := s.passBoundary.instrAddr_advance
    cases exec_faultCause hexec with
    | unmapped x hx => exact .inl ⟨x, rfl, hx⟩
    | mode hdest huser =>
      rw [haddr]
      exact .inr (.inr (.inl ⟨rfl, huser, i, hruns, hdest⟩))
    | divisor a b c hi hc =>
      rw [haddr]
      subst hi
      exact .inr (.inr (.inr ⟨rfl, a, b, c, hruns, s.advance.readReg_passBoundary c ▸ hc⟩))

end Sys2Proof.Machine

/-! SUPPORT. No instruction looks at what the environment presents, or changes it (60_exceptions.md R194, R202): proved
once for each shared operation, and for every instruction whose meaning is built from them. -/

namespace Sys2Proof.Machine

/-! ### Operands and updates with another line -/

theorem State.writeReg_setLine (s : State) (l : List (Option Word)) (a : Reg) (v : Word) :
    (s.setLine l).writeReg a v = (s.writeReg a v).setLine l := by
  cases a <;> rfl

@[simp] theorem eaConst_setLine (s : State) (l : List (Option Word)) (b : Reg) (c : Word) :
    eaConst (s.setLine l) b c = eaConst s b c := by
  simp [eaConst]

@[simp] theorem eaIndex_setLine (s : State) (l : List (Option Word)) (b c : Reg) :
    eaIndex (s.setLine l) b c = eaIndex s b c := by
  simp [eaIndex]

/-! ### The shared operations -/

/-- The meaning `k` neither looks at the line nor changes it: with another line it answers the same, with that line in
the next state (R194, R202; assumption 5). -/
def IgnoresLine (k : State → Host.Outcome State Fault Refusal) : Prop :=
  ∀ s l, k (s.setLine l) = mapNext (fun t => t.setLine l) (k s)

section Line

variable {a b c : Reg} {k : State → Host.Outcome State Fault Refusal} {ea v : State → Word} {g : State → State}

/-- A meaning that always goes on ignores the line if its next state does. -/
theorem IgnoresLine.next (hg : ∀ s l, g (s.setLine l) = (g s).setLine l) : IgnoresLine fun s => .next (g s) :=
  fun s l => congrArg Host.Outcome.next (hg s l)

theorem IgnoresLine.comp (hk : IgnoresLine k) (hg : ∀ s l, g (s.setLine l) = (g s).setLine l) :
    IgnoresLine fun s => k (g s) :=
  fun s l => (congrArg k (hg s l)).trans (hk (g s) l)

theorem IgnoresLine.mapNext (hk : IgnoresLine k) (hg : ∀ s l, g (s.setLine l) = (g s).setLine l) :
    IgnoresLine fun s => mapNext g (k s) := by
  intro s l
  dsimp only
  rw [hk]
  cases k s with
  | next t => exact congrArg Host.Outcome.next (hg t l)
  | fault | refused => rfl

theorem IgnoresLine.withDest (hk : IgnoresLine k) : IgnoresLine fun s => withDest a s (k s) := by
  intro s l
  have hmay : (s.setLine l).mayWrite a = s.mayWrite a := rfl
  cases h : s.mayWrite a with
  | false =>
    simp only [Machine.withDest, hmay, h]
    rfl
  | true => simp only [Machine.withDest, hmay, h, if_true, hk s l]

theorem IgnoresLine.setDest (hv : ∀ s l, v (s.setLine l) = v s) : IgnoresLine fun s => setDest a (v s) s :=
  .withDest (.next fun s l => by rw [hv, State.writeReg_setLine])

theorem ignoresLine_execDiv : IgnoresLine (execDiv a b c) := by
  refine .withDest fun s l => ?_
  rw [State.readReg_setLine, State.readReg_setLine, State.writeReg_setLine]
  by_cases hc : s.readReg c = 0#32
  · rw [if_pos hc, if_pos hc]
    rfl
  · rw [if_neg hc, if_neg hc]
    rfl

theorem IgnoresLine.loadWord (hea : ∀ s l, ea (s.setLine l) = ea s) : IgnoresLine fun s => loadWord a (ea s) s := by
  refine .withDest fun s l => ?_
  rw [hea, State.setLine_mem]
  cases s.mem.readWord (ea s) with
  | error => rfl
  | ok w => exact congrArg Host.Outcome.next (s.writeReg_setLine l a w)

theorem IgnoresLine.loadByte (hea : ∀ s l, ea (s.setLine l) = ea s) : IgnoresLine fun s => loadByte a (ea s) s := by
  refine .withDest fun s l => ?_
  rw [hea, State.setLine_mem]
  cases s.mem.readByte (ea s) with
  | error => rfl
  | ok w => exact congrArg Host.Outcome.next (s.writeReg_setLine l a _)

theorem IgnoresLine.storeWord (hea : ∀ s l, ea (s.setLine l) = ea s) (hv : ∀ s l, v (s.setLine l) = v s) :
    IgnoresLine fun s => storeWord (ea s) (v s) s := by
  intro s l
  dsimp only
  rw [hea, hv, Machine.storeWord, Machine.storeWord, State.setLine_mem]
  cases s.mem.writeWord (ea s) (v s) <;> rfl

theorem IgnoresLine.storeByte (hea : ∀ s l, ea (s.setLine l) = ea s) (hv : ∀ s l, v (s.setLine l) = v s) :
    IgnoresLine fun s => storeByte (ea s) (v s) s := by
  intro s l
  dsimp only
  rw [hea, hv, Machine.storeByte, Machine.storeByte, State.setLine_mem]
  cases s.mem.writeByte (ea s) (lowByte (v s)) <;> rfl

/-- A conditional jump ignores the line if its condition does. -/
theorem IgnoresLine.jumpIf {cond : State → Bool} {x : Word} (hcond : ∀ s l, cond (s.setLine l) = cond s) :
    IgnoresLine fun s => jumpIf (cond s) x s := by
  refine .next fun s l => ?_
  rw [hcond]
  exact (apply_ite (State.setLine · l) (cond s = true) (s.setPc (jumpTarget s x)) s).symm

theorem ignoresLine_execSwi (x : Word) : IgnoresLine (execSwi x) :=
  .next fun s l => (apply_ite (State.setLine · l) (s.swiEnabled = true) (enterInterrupt x s) s).symm

end Line

/-! ### The instructions -/

/-- No instruction looks at the line or changes it. -/
theorem ignoresLine_exec (i : Instr) : IgnoresLine (exec i) := by
  cases i with
  | ldi | mov | add | sub | mul | and | or | xor | addi | rol | ror | shl | shr =>
    exact .setDest fun s l => by simp only [State.readReg_setLine]
  | div => exact ignoresLine_execDiv
  | ld | ldr => exact .loadWord fun s l => by simp
  | ldb | lbr => exact .loadByte fun s l => by simp
  | st | str => exact .storeWord (fun s l => by simp) fun s l => by simp
  | stb | sbr => exact .storeByte (fun s l => by simp) fun s l => by simp
  | push a =>
    rw [funext (exec_push_eq_exec_st a)]
    have hstore : IgnoresLine (exec (.st a .r13 0#32)) := .storeWord (fun s l => by simp) fun s l => by simp
    exact hstore.comp fun s l => s.writeReg_setLine l .r13 _
  | pushb a =>
    rw [funext (exec_pushb_eq_exec_stb a)]
    have hstore : IgnoresLine (exec (.stb a .r13 0#32)) := .storeByte (fun s l => by simp) fun s l => by simp
    exact hstore.comp fun s l => s.writeReg_setLine l .r13 _
  | pop a =>
    rw [funext (exec_pop_eq_mapNext a)]
    have hload : IgnoresLine (exec (.ld a .r13 0#32)) := .loadWord fun s l => by simp
    exact hload.mapNext fun s l => s.writeReg_setLine l .r13 _
  | popb a =>
    rw [funext (exec_popb_eq_mapNext a)]
    have hload : IgnoresLine (exec (.ldb a .r13 0#32)) := .loadByte fun s l => by simp
    exact hload.mapNext fun s l => s.writeReg_setLine l .r13 _
  | jeq | jne | jlt | jgt | jle | jge => exact .jumpIf fun _ _ => rfl
  | swi c => exact ignoresLine_execSwi c
  | cmp a b =>
    refine .next fun s l => ?_
    rw [State.readReg_setLine, State.readReg_setLine]
    rfl
  | jmp | call | ret | iret => exact .next fun _ _ => rfl

/-- Settles O49: the statement is that the meaning of every instruction ignores the line. -/
theorem instructionsIgnoreTheLine : Obligations.InstructionsIgnoreTheLine :=
  ignoresLine_exec

end Sys2Proof.Machine

/-! SUPPORT. The reset state and the step from it, and the loop by which a run ends (70_reset_and_hazards.md R221, R222,
R233). -/

namespace Sys2Proof.Machine

/-! ### The reset state -/

/-- At reset every register but SW reads 0 (R221; assumptions 1 and 4). -/
theorem State.readReg_reset_of_ne_r12 {r : Reg} (hr : r ≠ .r12) : State.reset.readReg r = 0#32 := by
  cases r with
  | r12 => exact absurd rfl hr
  | _ => rfl

/-- At reset every byte of memory reads 0: none is listed (assumption 2). -/
theorem State.byteAt_reset (x : Word) : State.reset.mem.byteAt x = 0#8 := rfl

/-- At reset the map is one region of 64 KiB from address 0 (assumption 3). -/
theorem State.isBacked_reset_iff {x : Word} : State.reset.mem.isBacked x = true ↔ x.toNat < 0x10000 := by
  have hmap : State.reset.mem.isBacked x = (⟨0, 0x10000⟩ : Region).contains x.toNat := Bool.or_false _
  simp [hmap, Region.contains]

/-- With interrupts disabled at reset, no request is taken at the first boundary, whatever is presented (R222). -/
theorem State.noEntry_reset (m : Memory) (l : List (Option Word)) :
    ((State.reset.setMem m).setLine l).noEntry :=
  .inl (by decide : State.reset.flagI = false)

/-- Settles O54: SW and the fields are the values of the model, and the registers, the bytes and the map are as the
lemmas on them say. -/
theorem resetStateValues : Obligations.ResetStateValues :=
  ⟨by decide, by decide, rfl, rfl, rfl, rfl, fun _ => State.readReg_reset_of_ne_r12,
    fun x => ⟨State.byteAt_reset x, State.isBacked_reset_iff⟩⟩

/-- Settles O55: no interrupt comes before the first fetch, so the step runs what the word at `RESET_PC` decodes to. -/
theorem firstStepRunsResetPc : Obligations.FirstStepRunsResetPc := by
  intro m l i hb hd
  exact step_of_runs (State.runs_of_backedBytes (State.noEntry_reset m l) hb hd)

/-! ### The completed run -/

/-- The word that ends a run is `JMP -4` (R233). -/
theorem decodeWord_haltWord : decodeWord Config.haltWord = .ok (.jmp (-4#32)) := decodeWord_eq_ok_iff.2 (by decide)

/-- `JMP -4` undoes the advance of `pc` and does nothing else: it jumps to itself (R168, R233). -/
theorem exec_jmp_neg_four_advance (s : State) : exec (.jmp (-4#32)) s.advance = .next s := by
  have hpc : s.pc + 4#32 + -4#32 = s.pc := add_neg_cancel_right s.pc 4#32
  calc exec (.jmp (-4#32)) s.advance
      = .next (s.setPc (s.pc + 4#32 + -4#32)) := rfl
    _ = .next s := by rw [hpc]; rfl

section Completed

variable {s : State}

/-- No hardware interrupt is taken at the coming boundary of a completed run. -/
theorem State.completed.noEntry (h : s.completed) : s.noEntry := by
  obtain ⟨-, -, hI | hint | hline⟩ := h
  · exact .inl hI
  · exact .inr (.inl hint)
  · cases hhead : s.line.head? with
    | none => exact .inr (.inr (.inl hhead))
    | some r => exact .inr (.inr (.inr (hhead.trans (congrArg some (hline r (List.mem_of_mem_head? hhead))))))

/-- A completed run executes the jump to itself. -/
theorem State.completed.runs (h : s.completed) : s.runs (.jmp (-4#32)) := by
  have hs := h.noEntry
  obtain ⟨hbacked, hword, -⟩ := h
  exact State.runs_of_backedBytes hs hbacked (hword.symm ▸ decodeWord_haltWord)

/-- Passing a boundary keeps a run completed: the entries left were entries before. -/
theorem State.completed.passBoundary (h : s.completed) : s.passBoundary.completed := by
  obtain ⟨hbacked, hword, hI | hint | hline⟩ := h
  · exact ⟨hbacked, hword, .inl hI⟩
  · exact ⟨hbacked, hword, .inr (.inl hint)⟩
  · exact ⟨hbacked, hword, .inr (.inr fun r hr => hline r (List.mem_of_mem_tail hr))⟩

end Completed

/-- Settles O52: the step runs `JMP -4`, which leaves the state with the boundary passed, and that state is complete. -/
theorem completedRunStays : Obligations.CompletedRunStays := by
  intro s h
  exact ⟨(step_of_runs h.runs).trans (exec_jmp_neg_four_advance s.passBoundary), h.passBoundary⟩

end Sys2Proof.Machine

/-! SUPPORT. The round trip of the encoder and the decoder, and where the fields of a word stand (30_encoding.md R82 to
R86, R94): a format puts each operand where the decoder reads it. -/

namespace Sys2Proof

/-! ### The operands of a word put together by the formats -/

section Formats

variable {op : Byte} {a b c : Reg}

theorem regA_formatA {fb fc : BitVec 4} {cx : BitVec 12} : regA (formatA op a.field fb fc cx) = a := by
  rw [regA, aField_formatA, Reg.ofField_field]

theorem regB_formatA {fa fc : BitVec 4} {cx : BitVec 12} : regB (formatA op fa b.field fc cx) = b := by
  rw [regB, bField_formatA, Reg.ofField_field]

theorem regC_formatA {fa fb : BitVec 4} {cx : BitVec 12} : regC (formatA op fa fb c.field cx) = c := by
  rw [regC, cField_formatA, Reg.ofField_field]

theorem regA_formatL {fb : BitVec 4} {cx : BitVec 16} : regA (formatL op a.field fb cx) = a := by
  rw [regA, aField_formatL, Reg.ofField_field]

theorem regB_formatL {fa : BitVec 4} {cx : BitVec 16} : regB (formatL op fa b.field cx) = b := by
  rw [regB, bField_formatL, Reg.ofField_field]

theorem c5Field_formatA {fa fb fc : BitVec 4} {n : Nat} (h : fits5 n = true) :
    c5Field (formatA op fa fb fc ((BitVec.ofNat 5 n).setWidth 12)) = n := by
  refine (fits5_and_ofNat_eq_iff.1 ⟨h, ?_⟩).symm
  have hlow (w : Word) : w.extractLsb' 0 5 = (w.extractLsb' 0 12).setWidth 5 := by
    ext i hi
    grind
  rw [hlow, constant_formatA, BitVec.setWidth_setWidth_of_le _ (by decide), BitVec.setWidth_eq]

theorem c12Field_formatA {fa fb fc : BitVec 4} {cx : Word} (h : fits12 cx = true) :
    c12Field (formatA op fa fb fc (cx.setWidth 12)) = cx :=
  ((fitsSigned_and_setWidth_eq_iff (by decide) (by decide)).1 ⟨h, (constant_formatA ..).symm⟩).symm

theorem c16Field_formatL {fa fb : BitVec 4} {cx : Word} (h : fits16 cx = true) :
    c16Field (formatL op fa fb (cx.setWidth 16)) = cx :=
  ((fitsSigned_and_setWidth_eq_iff (by decide) (by decide)).1 ⟨h, (constant_formatL ..).symm⟩).symm

theorem c24Field_formatJ {cx : Word} (h : fits24 cx = true) : c24Field (formatJ op (cx.setWidth 24)) = cx :=
  ((fitsSigned_and_setWidth_eq_iff (by decide) (by decide)).1 ⟨h, (constant_formatJ ..).symm⟩).symm

end Formats

/-! ### The fields of the canonical word -/

theorem opField_encode (i : Instr) : opField (encode i) = i.opcode := by
  cases i with
  | ld | st | ldb | stb | ldi => exact opField_formatL ..
  | jeq | jne | jlt | jgt | jle | jge | jmp | swi | call | ret | iret => exact opField_formatJ ..
  | _ => exact opField_formatA ..

/-- The canonical word of a well-formed instruction holds its operands in the fields the decoder reads (R94). -/
theorem operandsIn_encode {i : Instr} (h : i.wf = true) : i.operandsIn (encode i) := by
  cases i with
  | ld | st | ldb | stb => exact ⟨regA_formatL.symm, regB_formatL.symm, (c16Field_formatL h).symm⟩
  | ldi => exact ⟨regA_formatL.symm, (c16Field_formatL h).symm⟩
  | ldr | str | lbr | sbr | add | sub | mul | div | and | or | xor =>
    exact ⟨regA_formatA.symm, regB_formatA.symm, regC_formatA.symm⟩
  | cmp | mov => exact ⟨regA_formatA.symm, regB_formatA.symm⟩
  | addi => exact ⟨regA_formatA.symm, regB_formatA.symm, (c12Field_formatA h).symm⟩
  | rol | ror | shl | shr => exact ⟨regA_formatA.symm, regB_formatA.symm, (c5Field_formatA h).symm⟩
  | jeq | jne | jlt | jgt | jle | jge | jmp | swi | call => exact (c24Field_formatJ h).symm
  | ret | iret => trivial
  | push | pop | pushb | popb => exact regA_formatA.symm

theorem decodeWord_encode {i : Instr} (h : i.wf = true) : decodeWord (encode i) = .ok i :=
  decodeWord_eq_ok_iff_fields.2 ⟨(opField_encode i).symm, operandsIn_encode h⟩

/-- Settles O26: the canonical word has the instruction's OP value and operand fields, and its four bytes are the
word. -/
theorem decodeInvertsEncode : Obligations.DecodeInvertsEncode := by
  intro i h
  have hword := decodeWord_encode h
  exact ⟨hword, by rw [decode_wordBytes, hword]; rfl⟩

/-- Settles O27: being well-formed is part of what `decodeWord_eq_ok_iff` says of a decoded instruction. -/
theorem decodedIsWellFormed : Obligations.DecodedIsWellFormed := fun _ _ h => (decodeWord_eq_ok_iff.1 h).1

/-! ### The fields of any word, in numbers -/

/-- The field of `n` bits from bit `k` on, as a number. -/
theorem toNat_extractLsb'_eq_div_mod (ir : Word) (k n : Nat) :
    (ir.extractLsb' k n).toNat = ir.toNat / 2 ^ k % 2 ^ n := by
  rw [BitVec.extractLsb'_toNat, Nat.shiftRight_eq_div_pow]

theorem toNat_field_ofField_extractLsb' (ir : Word) (k : Nat) :
    (Reg.ofField (ir.extractLsb' k 4)).field.toNat = ir.toNat / 2 ^ k % 16 := by
  rw [Reg.field_ofField]
  exact toNat_extractLsb'_eq_div_mod ir k 4

/-- The sign-extended field of the low `n` bits is their signed reading (R86). -/
theorem toInt_signExtend_extractLsb' (ir : Word) {n : Nat} (hn : n ≤ 32) :
    ((ir.extractLsb' 0 n).signExtend 32).toInt = (ir.toNat % 2 ^ n : Int).bmod (2 ^ n) := by
  rw [BitVec.toInt_signExtend_of_le hn, BitVec.toInt_eq_toNat_bmod, toNat_extractLsb'_eq_div_mod, pow_zero,
    Nat.div_one]
  push_cast
  rfl

/-- Settles O25: each field is an `extractLsb'` of the word at its position, read as a number, a register or a signed
constant. -/
theorem fieldsStandInTheirBits : Obligations.FieldsStandInTheirBits := by
  intro ir
  refine ⟨?_, toNat_field_ofField_extractLsb' ir 20, toNat_field_ofField_extractLsb' ir 16,
    toNat_field_ofField_extractLsb' ir 12, ?_, toInt_signExtend_extractLsb' ir (by decide),
    toInt_signExtend_extractLsb' ir (by decide), toInt_signExtend_extractLsb' ir (by decide)⟩
  · have hlt := ir.isLt
    rw [opField, toNat_extractLsb'_eq_div_mod]
    omega
  · rw [c5Field, toNat_extractLsb'_eq_div_mod]
    omega

end Sys2Proof

namespace Sys2Proof.Machine

/-- Settles O41: memory at reset lists nothing. -/
theorem resetMemoryCanonical : Obligations.ResetMemoryCanonical := Memory.wf_empty Platform.resetMap

end Sys2Proof.Machine
